-- ==== Sys2Proof/Word.lean ====
section
/-! DEFINITION. The word types of the encoder, by the names the spec gives the quantities (00_scope.md R7). -/

namespace Sys2Proof

/-- A byte: an unsigned integer in 0..255 (00_scope.md R7). -/
abbrev Byte := BitVec 8

/-- A 7-bit I2C device address (10_state.md R11). -/
abbrev DevAddr := BitVec 7

/-- A nibble: 4 bits (00_scope.md R9). -/
abbrev Nibble := BitVec 4

/-- A request word, format RQ: 10 bits, bit 9 the most significant (30_encoding.md R54). -/
abbrev Request := BitVec 10

end Sys2Proof
end

