-- ==== Sys2Proof/Config.lean ====
section
/-! DEFINITION. What is fixed for the machine (00_scope.md R6), the parameters of a construction
(70_reset_and_hazards.md R120), and the free values: constants without a body, of which nothing can be proved. -/

namespace Sys2Proof

/-- The mode of a byte transfer: which register of the controller the byte is for (30_encoding.md R52). -/
inductive Mode where
  | command
  | data
  deriving DecidableEq, Repr, Inhabited

/-- What the bus transport does with one `write_byte` (20_memory.md R31): takes the byte, answers
`TransportError`, or never returns. -/
inductive BusAnswer where
  | ok
  | err
  | never
  deriving DecidableEq, Repr, Inhabited

/-- The four construction parameters (70_reset_and_hazards.md R120). The integers are unbounded, so that the
illegal values of 60_exceptions.md R104 can be written down. -/
structure Params where
  address          : Nat
  width            : Int
  maxLines         : Int
  backlightEnabled : Bool
  deriving DecidableEq, Repr

/-- The two strobe delays of a build, in microseconds: "parameters with the stated defaults, not fixed constants"
(00_scope.md R6; 92_eei_decisions.md D4). They are no construction parameters (70_reset_and_hazards.md R120); how they are
configured is not in the source (91_not_in_source.md N20), and log entry 13 says what the model takes. -/
structure Delays where
  /-- `T_PULSE`: the minimum hold with enable asserted. -/
  pulse  : Nat
  /-- `T_SETTLE`: the minimum hold after enable is deasserted. -/
  settle : Nat
  deriving DecidableEq, Repr

/-- The construction parameters a check can reject; a `ConfigurationError` records "which parameter"
(60_exceptions.md R100, R104). -/
inductive ParamName where
  | address
  | width
  | maxLines
  deriving DecidableEq, Repr

namespace Config

/-- The defaults of `T_PULSE` and `T_SETTLE`, 500 us each (00_scope.md R6). -/
def defaultDelays : Delays := ⟨500, 500⟩

/-- No build is below 0.5 ms in either delay; "Longer delays are always allowed" (70_reset_and_hazards.md R125). -/
def minDelay : Nat := 500

/-- `T_INIT`, in microseconds: the settle delay the host keeps after `INIT`, a constant (00_scope.md R6; log entry 13). -/
def tInit : Nat := 500

/-- The default construction: address 0x27, width 16, 2 lines, backlight enabled (00_scope.md R6; 10_state.md R26). -/
def defaults : Params := ⟨0x27, 16, 2, true⟩

/-- FREE VALUE (log entry 1, safe): what the bus transport answers to a write past the end of `busScript`. The
transport, not the block, chooses the outcome of a write (20_memory.md R31). -/
opaque freeAnswer : Nat → BusAnswer

/-- FREE VALUE (log entry 2, safe): `OPM` while `SQ = Idle`, unspecified by 10_state.md R18 and 60_exceptions.md R102. -/
opaque freeOpm : Nat → Mode

/-- FREE VALUE (log entry 2, safe): `OPB` while `SQ = Idle` (10_state.md R18). -/
opaque freeOpb : Nat → Byte

/-- FREE VALUE (log entry 2, safe): `OPL` while `SQ = Idle` (10_state.md R18). -/
opaque freeOpl : Nat → Bool

end Config

end Sys2Proof
end

