-- ==== Sys2Proof/Syntax.lean ====
section
/-! DEFINITION. The five operations of the block (30_encoding.md R55; opcode_table.json), one constructor per row. -/

namespace Sys2Proof

/-- The operation map of 30_encoding.md R55. -/
inductive Instr where
  /-- `CMD b`: send the byte b to the controller as a command (40_send.md R72). -/
  | cmd (b : Byte)
  /-- `DAT b`: send the byte b to the controller as character data (40_send.md R73). -/
  | dat (b : Byte)
  /-- `BLOFF`: disable the backlight (41_backlight.md R80). -/
  | bloff
  /-- `BLON`: enable the backlight (41_backlight.md R81). -/
  | blon
  /-- `BLTGL`: invert the backlight bit (41_backlight.md R82). -/
  | bltgl
  deriving DecidableEq, Repr

/-- The pseudo-instructions of 30_encoding.md R62, and an operation as itself: the lines of a host program. A
line index is any integer (42_host_sequences.md R91), a delay is in microseconds. -/
inductive Pseudo where
  | op (i : Instr)
  | init
  | line (n : Int)
  | putc (c : Char)
  | wrline (text : List Char) (n : Int)
  | wait (d : Nat)
  deriving DecidableEq, Repr

end Sys2Proof
end

