-- ==== Sys2Proof/WellFormed.lean ====
section
/-! DEFINITION. The well-formedness checks: the three checks of a construction (60_exceptions.md R104), that of a build's delays, and the
operations, of which every term is well-formed (30_encoding.md R57). -/

namespace Sys2Proof

/-- "width <= 0" is illegal (60_exceptions.md R104). -/
def Params.widthOk (p : Params) : Bool := decide (1 ≤ p.width)

/-- "max_lines outside 1-4" is illegal (60_exceptions.md R104). -/
def Params.maxLinesOk (p : Params) : Bool := decide (1 ≤ p.maxLines ∧ p.maxLines ≤ 4)

/-- An address above 0x7F is illegal (60_exceptions.md R104; 90_conflicts.md C2). -/
def Params.addressOk (p : Params) : Bool := decide (p.address ≤ 0x7F)

/-- A build keeps both delays at 0.5 ms or longer; one that does not "departs from the source"
(70_reset_and_hazards.md R125). The spec names no exception for it: a premise, not a check of construction (log entry 13). -/
def Delays.wf (d : Delays) : Bool := decide (Config.minDelay ≤ d.pulse ∧ Config.minDelay ≤ d.settle)

/-- A construction that passes every check (60_exceptions.md R104). -/
def Params.wf (p : Params) : Bool := p.widthOk && p.maxLinesOk && p.addressOk

/-- Every operation is well-formed: "Every operand value is legal" (30_encoding.md R57). An operand outside 0..255
or a mode that is neither Command nor Data cannot be written in the type. -/
def Instr.wf : Instr → Bool
  | .cmd _ => true
  | .dat _ => true
  | .bloff => true
  | .blon => true
  | .bltgl => true

end Sys2Proof
end

