-- ==== Sys2Proof/Decode.lean ====
section
/-! DEFINITION. The request word, format RQ (30_encoding.md R54, R55, R56): the decoder, total on all 1024 words and
refusing by name, and the encoder. -/

namespace Sys2Proof

/-- Why a request word is reserved (30_encoding.md R54, R56). -/
inductive Reserved where
  /-- `OP = 0b11`. -/
  | op
  /-- Backlight group with one of `IMM` bits 7..2 set. -/
  | immBits
  /-- Backlight group with `FN = 0b11`. -/
  | fn
  deriving DecidableEq, Repr

/-- What a request word decodes to. -/
inductive Decoded where
  | instr (i : Instr)
  | reserved (why : Reserved)
  deriving DecidableEq, Repr

/-- `OP`, bits 9..8 (30_encoding.md R54). -/
def opField (rq : Request) : BitVec 2 := rq.extractLsb' 8 2

/-- `IMM`, bits 7..0 (30_encoding.md R54). -/
def immField (rq : Request) : Byte := rq.extractLsb' 0 8

/-- `FN`, bits 1..0 of the backlight group (30_encoding.md R54). -/
def fnField (rq : Request) : BitVec 2 := rq.extractLsb' 0 2

/-- Bits 7..2 of the backlight group, which must be 0 (30_encoding.md R54). -/
def zeroField (rq : Request) : BitVec 6 := rq.extractLsb' 2 6

/-- The backlight group, `OP = 0b10` (30_encoding.md R54, R55). -/
def decodeBacklight (rq : Request) : Decoded :=
  if zeroField rq ≠ 0b000000#6 then .reserved .immBits
  else if fnField rq = 0b00#2 then .instr .bloff
  else if fnField rq = 0b01#2 then .instr .blon
  else if fnField rq = 0b10#2 then .instr .bltgl
  else .reserved .fn

/-- The decoder of 30_encoding.md R54 and R55. -/
def decode (rq : Request) : Decoded :=
  if opField rq = 0b00#2 then .instr (.cmd (immField rq))
  else if opField rq = 0b01#2 then .instr (.dat (immField rq))
  else if opField rq = 0b10#2 then decodeBacklight rq
  else .reserved .op

/-- The request word of an operation, from the patterns of 30_encoding.md R55: `OP` above `IMM`. -/
def encode : Instr → Request
  | .cmd b => 0b00#2 ++ b
  | .dat b => 0b01#2 ++ b
  | .bloff => 0b10#2 ++ 0b00000000#8
  | .blon => 0b10#2 ++ 0b00000001#8
  | .bltgl => 0b10#2 ++ 0b00000010#8

/-- The decoder on an opcode-table word: a request is one word of 10 bits (30_encoding.md R50), numbered as the table
numbers it. A word with a bit above bit 9 is no request word; `nbits` only says how many bits the host gives. -/
def decodeTableWord (_nbits w : Nat) : Option Instr :=
  if w < 2 ^ 10 then
    match decode (BitVec.ofNat 10 w) with
    | .instr i => some i
    | .reserved _ => none
  else none

end Sys2Proof
end

