-- ==== Sys2Proof/Machine/State.lean ====
section
/-! DEFINITION. The state of the encoder (10_state.md R10), of the registers behind the bus (10_state.md R22), the
records of what the block did (20_memory.md R45; 10_state.md R23), the two inputs (10_state.md R21), and the state
right after reset (10_state.md R26). Plain data throughout. -/

namespace Sys2Proof.Machine

/-- `SQ`, the sequencer step, this block's program counter (10_state.md R17). -/
inductive Sq where
  | idle | s0 | s1 | s2 | s3 | s4 | s5 | s6 | s7 | s8 | s9
  deriving DecidableEq, Repr

/-- An event of the trace (20_memory.md R45): a write that succeeded, a write that failed, a delay of at least `d`
microseconds. -/
inductive Event where
  | w (a : DevAddr) (v : Byte)
  | wf (a : DevAddr) (v : Byte)
  | t (d : Nat)
  deriving DecidableEq, Repr

/-- The causes of 60_exceptions.md R100. -/
inductive Cause where
  | transportError
  | configurationError
  | illegalRequest
  deriving DecidableEq, Repr

/-- The host port's answer to an accepted or refused request (10_state.md R23): `Done`, or `Fault(cause, step)` with
the request word an `IllegalRequest` records (60_exceptions.md R100, R102, R105). -/
inductive Answer where
  | done
  | fault (cause : Cause) (step : Sq) (word : Option Request)
  deriving DecidableEq, Repr

/-- One thing the host does: present a request word (10_state.md R23), or ask the clock for a delay of its own
(42_host_sequences.md R96). -/
inductive HostAction where
  | request (rq : Request)
  | wait (d : Nat)
  deriving DecidableEq, Repr

/-- What can stop the machine. -/
inductive Fault where
  /-- Raised by `construct` alone: a construction parameter is illegal, and no block exists afterwards
  (60_exceptions.md R100, R104). `bad` lists every illegal parameter (log entry 10). Safe: no step answers it. -/
  | configurationError (bad : List ParamName)
  deriving DecidableEq, Repr

/-- Why a step can be refused. -/
inductive Refusal where
  /-- For an instruction with no meaning in `exec`. No arm uses it: every instruction has its meaning. Safe. -/
  | notModelled (mnemonic : String)
  deriving DecidableEq, Repr

/-- The machine. `addr` to `tf`, but for `delays`, are the spec's registers, latches and flag (10_state.md R11 to R19; `BUSY`
is a function of `sq`); `delays` holds the build's parameters `T_PULSE` and `T_SETTLE`, no register (00_scope.md R6; log
entry 13); `mem` is the adapters' output registers behind the bus by device address (20_memory.md R30; 10_state.md R22), a
list in the canonical form of `Memory.wf`; `trace` and `answers` are records; `hostScript` and `busScript` are the inputs,
what the host does next and what the bus transport answers next (10_state.md R21); `busDrawn` and `latchDrawn` are the model's
own counters of the free values taken so far (log entries 1, 2). -/
structure State where
  addr       : DevAddr
  width      : Nat
  maxLines   : BitVec 3
  bl         : Bool
  delays     : Delays
  sq         : Sq
  opm        : Mode
  opb        : Byte
  opl        : Bool
  tf         : Bool
  mem        : List Host.Cell
  trace      : List Event
  answers    : List Answer
  hostScript : List HostAction
  busScript  : List BusAnswer
  busDrawn   : Nat
  latchDrawn : Nat
  deriving DecidableEq, Repr

/-- The state of a block constructed with legal parameters (10_state.md R26; 70_reset_and_hazards.md R120): the four
registers hold the parameters, the delays are the build's (log entry 13), `SQ = Idle`, `TF = 0`, the trace is empty. The latches are unspecified there:
DESIGN CHOICE zero, log entry 3, unsafe. Nothing is scripted for the host or the bus, and nothing is known of the
registers behind the bus (70_reset_and_hazards.md R122; log entries 1, 4, 5). -/
def State.afterReset (d : Delays) (p : Params) : State where
  addr       := BitVec.ofNat 7 p.address
  width      := p.width.toNat
  maxLines   := BitVec.ofNat 3 p.maxLines.toNat
  bl         := p.backlightEnabled
  delays     := d
  sq         := .idle
  opm        := .command
  opb        := 0x00#8
  opl        := false
  tf         := false
  mem        := []
  trace      := []
  answers    := []
  hostScript := []
  busScript  := []
  busDrawn   := 0
  latchDrawn := 0

/-- Reset: construction with the default parameters, in a build with the default delays (00_scope.md R6; 10_state.md R26;
70_reset_and_hazards.md R120). -/
def State.reset : State := State.afterReset Config.defaultDelays Config.defaults

end Sys2Proof.Machine
end

