-- ==== Sys2Proof/Machine/Operands.lean ====
section
/-! DEFINITION. Format CB, the control byte (30_encoding.md R51, R52), and the nibble assembly (30_encoding.md R53). The
block has one operand form, the immediate byte (10_state.md R16; 40_send.md R79). -/

namespace Sys2Proof.Machine

/-- `RS_MASK`: the mode bit, bit 0 (30_encoding.md R51). -/
def rsMask : Byte := 0x01#8

/-- `BL_MASK`: the backlight bit, bit 3 (30_encoding.md R51). -/
def blMask : Byte := 0x08#8

/-- `DATA_MASK`: the four data bits, bits 7..4 (30_encoding.md R51). -/
def dataMask : Byte := 0xF0#8

/-- `EN_MASK`: the enable strobe, bit 2 (30_encoding.md R51; the spec's own decision D1, log entry 9). -/
def enMask : Byte := 0x04#8

/-- The mode bit as a byte: Command is 0x00, Data is 0x01 (30_encoding.md R52). -/
def modeByte : Mode → Byte
  | .command => 0x00#8
  | .data => 0x01#8

/-- A one-bit register as a byte, 0x00 or 0x01. -/
def bitByte (b : Bool) : Byte := if b then 0x01#8 else 0x00#8

/-- `hi(b)`: the high nibble, kept in bits 7..4 (30_encoding.md R53). -/
def hi (b : Byte) : Byte := b &&& dataMask

/-- `lo(b)`: the low nibble, moved to bits 7..4. The shift is on the natural number; the mask then drops bits 8 and
above (30_encoding.md R53; 00_scope.md R7). -/
def lo (b : Byte) : Byte := BitVec.ofNat 8 ((b.toNat <<< 4) &&& dataMask.toNat)

/-- The high nibble of a byte as four bits, `b[7:4]`. -/
def highNibble (b : Byte) : Nibble := b.extractLsb' 4 4

/-- The low nibble of a byte as four bits, `b[3:0]`. -/
def lowNibble (b : Byte) : Nibble := b.extractLsb' 0 4

/-- `ctrl(m, n, bl)`: the control byte with the enable bit clear (30_encoding.md R51; 00_scope.md R8). -/
def ctrl (m : Mode) (n : Nibble) (bl : Bool) : Byte :=
  (modeByte m * rsMask) ||| (n.setWidth 8 * 16#8) ||| (bitByte bl * blMask)

/-- The same control byte with the enable bit asserted, `c | EN_MASK` (40_send.md R71). -/
def assertEnable (c : Byte) : Byte := c ||| enMask

/-- The same control byte with the enable bit deasserted, `c & ~EN_MASK` (40_send.md R71). -/
def deassertEnable (c : Byte) : Byte := c &&& ~~~enMask

/-- `c_hi` as `Send` composes it: mode bit OR (byte AND 0xF0) OR backlight bit (40_send.md R70, step 1). -/
def composeHi (m : Mode) (b : Byte) (bl : Bool) : Byte :=
  (modeByte m * rsMask) ||| hi b ||| (bitByte bl * blMask)

/-- `c_lo` as `Send` composes it: mode bit OR ((byte shifted left 4) AND 0xF0) OR backlight bit (40_send.md R70, step 2). -/
def composeLo (m : Mode) (b : Byte) (bl : Bool) : Byte :=
  (modeByte m * rsMask) ||| lo b ||| (bitByte bl * blMask)

/-- The fields of a control byte as a consumer of the trace reads them (30_encoding.md R51, R59): `D`, bits 7..4. -/
def dataField (v : Byte) : Nibble := v.extractLsb' 4 4

/-- `BLB`, bit 3 (30_encoding.md R59). -/
def backlightField (v : Byte) : Bool := v.getLsbD 3

/-- `EN`, bit 2 (30_encoding.md R59). -/
def enableField (v : Byte) : Bool := v.getLsbD 2

/-- `RS`, bit 0, as a mode (30_encoding.md R52, R59). -/
def modeField (v : Byte) : Mode := if v.getLsbD 0 then .data else .command

/-- The address the block drives at the bus port: `zext_8(ADDR)` (10_state.md R24). -/
def busAddress (a : DevAddr) : Byte := a.setWidth 8

end Sys2Proof.Machine
end

