-- ==== Sys2Proof/Machine/Flags.lean ====
section
/-! DEFINITION. The two status flags (10_state.md R19). No operation computes a result that is tested: there are no
condition codes. -/

namespace Sys2Proof.Machine

/-- `BUSY`: 1 exactly when `SQ` is not `Idle`; a function of `SQ`, no storage (10_state.md R19). -/
def State.busy (s : State) : Bool := !decide (s.sq = .idle)

/-- `TF <- 1`: a bus write of the block failed. Nothing but reset clears it (10_state.md R19; 60_exceptions.md R102). -/
def setTransportFault (s : State) : State := { s with tf := true }

end Sys2Proof.Machine
end

