-- ==== Sys2Proof/Machine/Ops.lean ====
section
/-! DEFINITION. The shared operations: the registers behind the bus, the bus port with its three outcomes
(20_memory.md R31), the delay port (60_exceptions.md R111), the host port's answers (10_state.md R23), taking an exception
(60_exceptions.md R102, R105), and the sequencer (10_state.md R17). -/

namespace Sys2Proof.Machine

/-! ### The registers behind the bus -/

/-- The address space (20_memory.md R30): the known contents of the adapters' output registers, by device address. An
address that is not listed has no known value (10_state.md R22; 93_implementation_defined.md U3, U6; log entry 4). -/
abbrev Memory := List Host.Cell

/-- The known contents at `a`, or none. An observer's view: the block itself never reads (20_memory.md R32). -/
def Memory.read : Memory → Nat → Option Byte
  | [], _ => none
  | (k, v) :: rest, a => if k = a then some v else Memory.read rest a

/-- Make `v` the contents at `a` (20_memory.md R34). -/
def Memory.write : Memory → Nat → Byte → Memory
  | [], a, v => [(a, v)]
  | (k, x) :: rest, a, v =>
    if a < k then (a, v) :: (k, x) :: rest
    else if a = k then (a, v) :: rest
    else (k, x) :: Memory.write rest a v

/-- Forget the contents at `a`: they are unspecified from here on (93_implementation_defined.md U3). -/
def Memory.forget : Memory → Nat → Memory
  | [], _ => []
  | (k, x) :: rest, a => if k = a then rest else (k, x) :: Memory.forget rest a

/-- Every key of `m` is above `lo`, and the keys rise strictly. -/
def Memory.risingFrom : Nat → Memory → Bool
  | _, [] => true
  | low, (k, _) :: rest => decide (low ≤ k) && Memory.risingFrom (k + 1) rest

/-- The canonical form: addresses strictly rising, all of them 7-bit device addresses (20_memory.md R30). An unlisted
address reads as no value, so no entry can equal it. -/
def Memory.wf (m : Memory) : Bool := Memory.risingFrom 0 m && m.all (fun c => decide (c.1 < 128))

/-! ### The bus transport's answers -/

/-- The answer to the write after `n` more answered ones: from the script, past its end a free value (20_memory.md R31;
log entry 1). -/
def State.answerAhead (s : State) (n : Nat) : BusAnswer :=
  match s.busScript[n]? with
  | some a => a
  | none => Config.freeAnswer (s.busDrawn + (n - s.busScript.length))

/-- The answer to the next write. -/
def State.busAnswer (s : State) : BusAnswer := s.answerAhead 0

/-- That answer has been given. -/
def takeAnswer (s : State) : State :=
  match s.busScript with
  | _ :: rest => { s with busScript := rest }
  | [] => { s with busDrawn := s.busDrawn + 1 }

/-- The next `n` answers have been given. -/
def takeAnswers : Nat → State → State
  | 0, s => s
  | n + 1, s => takeAnswers n (takeAnswer s)

/-! ### The records -/

/-- Append an event to the trace (20_memory.md R45). -/
def emit (e : Event) (s : State) : State := { s with trace := s.trace ++ [e] }

/-- Answer the host port (10_state.md R23). -/
def reply (a : Answer) (s : State) : State := { s with answers := s.answers ++ [a] }

/-! ### The sequencer's way back to `Idle` -/

/-- `SQ <- Idle`; `OPM`, `OPB`, `OPL` become unspecified (10_state.md R18; 60_exceptions.md R102): free values, log entry 2. -/
def goIdle (s : State) : State :=
  { s with
    sq := .idle
    opm := Config.freeOpm s.latchDrawn
    opb := Config.freeOpb s.latchDrawn
    opl := Config.freeOpl s.latchDrawn
    latchDrawn := s.latchDrawn + 1 }

/-! ### Taking an exception -/

/-- `TransportError` while writing `v` (60_exceptions.md R102): the event `WF(ADDR, v)`, `TF <- 1`, `SQ <- Idle`, the answer
`Fault(TransportError, Sk)`. What the adapter's register holds is unspecified from here on (93_implementation_defined.md
U3). There is no return from it (60_exceptions.md R108): the block is idle and accepts the next request. -/
def raiseTransportError (v : Byte) (s : State) : State :=
  reply (.fault .transportError s.sq none)
    (goIdle (setTransportFault (emit (.wf s.addr v)
      { s with mem := Memory.forget s.mem (busAddress s.addr).toNat })))

/-- `IllegalRequest` (60_exceptions.md R105): the answer `Fault(IllegalRequest, Idle)` with the request word recorded
(R100); no event, no register, no flag. -/
def raiseIllegalRequest (rq : Request) (s : State) : State :=
  reply (.fault .illegalRequest .idle (some rq)) s

/-! ### The sequencer -/

/-- The step after `k`: `S(k+1)`, and `Idle` after `S9` (10_state.md R17). -/
def Sq.succ : Sq → Sq
  | .idle => .idle
  | .s0 => .s1
  | .s1 => .s2
  | .s2 => .s3
  | .s3 => .s4
  | .s4 => .s5
  | .s5 => .s6
  | .s6 => .s7
  | .s7 => .s8
  | .s8 => .s9
  | .s9 => .idle

/-- How many events of the operation lie before the step; 0 at `Idle` (10_state.md R17). -/
def Sq.index : Sq → Nat
  | .idle => 0
  | .s0 => 0
  | .s1 => 1
  | .s2 => 2
  | .s3 => 3
  | .s4 => 4
  | .s5 => 5
  | .s6 => 6
  | .s7 => 7
  | .s8 => 8
  | .s9 => 9

/-- The event a step performs (the table of 10_state.md R17). -/
inductive Micro where
  | write (v : Byte)
  | delay (d : Nat)
  deriving DecidableEq, Repr

/-- `c_hi = ctrl(OPM, OPB[7:4], OPL)`, composed from the latches (10_state.md R18, R20). -/
def State.latchedHi (s : State) : Byte := ctrl s.opm (highNibble s.opb) s.opl

/-- `c_lo = ctrl(OPM, OPB[3:0], OPL)`, composed from the latches (10_state.md R18, R20). -/
def State.latchedLo (s : State) : Byte := ctrl s.opm (lowNibble s.opb) s.opl

/-- The table of 10_state.md R17: what the block does next, and nothing at `Idle`. -/
def State.micro (s : State) : Option Micro :=
  match s.sq with
  | .idle => none
  | .s0 => some (.write s.latchedHi)
  | .s1 => some (.write (assertEnable s.latchedHi))
  | .s2 => some (.delay s.delays.pulse)
  | .s3 => some (.write (deassertEnable s.latchedHi))
  | .s4 => some (.delay s.delays.settle)
  | .s5 => some (.write s.latchedLo)
  | .s6 => some (.write (assertEnable s.latchedLo))
  | .s7 => some (.delay s.delays.pulse)
  | .s8 => some (.write (deassertEnable s.latchedLo))
  | .s9 => some (.delay s.delays.settle)

/-- The event of the step has completed: on to the next step, and after `S9` back to `Idle` with the answer `Done`
(10_state.md R17, R23). -/
def advance (s : State) : State :=
  match s.sq.succ with
  | .idle => reply .done (goIdle s)
  | k => { s with sq := k }

/-- A write that succeeded: the event `W(ADDR, v)`, and the adapter's register holds `v` (20_memory.md R31, R34). -/
def completeWrite (v : Byte) (s : State) : State :=
  emit (.w s.addr v) { s with mem := Memory.write s.mem (busAddress s.addr).toNat v }

/-- `MemWrite(ADDR, 1, v)` at the current step, with the three outcomes of 20_memory.md R31. A write that never returns
leaves the block where it is, for ever (60_exceptions.md R109; log entry 6). -/
def memWrite (v : Byte) (s : State) : State :=
  match s.busAnswer with
  | .ok => advance (completeWrite v (takeAnswer s))
  | .err => raiseTransportError v (takeAnswer s)
  | .never => s

/-- `Delay(d)` at the current step: it always returns (60_exceptions.md R111; 10_state.md R25). -/
def delay (d : Nat) (s : State) : State := advance (emit (.t d) s)

/-- One step of the sequencer: the event of the current step (10_state.md R17); nothing at `Idle`. -/
def seqStep (s : State) : State :=
  match s.micro with
  | none => s
  | some (.write v) => memWrite v s
  | some (.delay d) => delay d s

/-- `n` steps of the sequencer. At `Idle`, and while a write does not return, a step changes nothing. -/
def runSeq : Nat → State → State
  | 0, s => s
  | n + 1, s => runSeq n (seqStep s)

/-! ### The host port -/

/-- The host port accepts an operation only at `Idle`; while `BUSY = 1` it accepts nothing (10_state.md R23). -/
def whenIdle (op : State → State) (s : State) : State := if s.busy then s else op s

/-- Accept a byte transfer: latch the mode, the byte and `BL`, and go to `S0` (10_state.md R18; 40_send.md R70). -/
def acceptTransfer (m : Mode) (b : Byte) (s : State) : State :=
  { s with opm := m, opb := b, opl := s.bl, sq := .s0 }

/-- `Send(m, b)` (40_send.md R70) as the sequencer performs it: accepted, then its ten steps (10_state.md R17), fewer if a
write fails or never returns. -/
def transfer (m : Mode) (b : Byte) (s : State) : State := runSeq 10 (acceptTransfer m b s)

/-- Write `BL` and answer `Done` at once (41_backlight.md R83). -/
def setBacklight (v : Bool) (s : State) : State := reply .done { s with bl := v }

end Sys2Proof.Machine
end

