-- ==== Sys2Proof/Machine/Backlight.lean ====
section
/-! DEFINITION. The backlight operations (41_backlight.md R80 to R83): the block's only control-register writes. -/

namespace Sys2Proof.Machine

/-- `BLOFF`: `BL <- 0` (41_backlight.md R80). -/
def execBloff (s : State) : Host.Outcome State Fault Refusal :=
  .next (whenIdle (setBacklight false) s)

/-- `BLON`: `BL <- 1` (41_backlight.md R81). -/
def execBlon (s : State) : Host.Outcome State Fault Refusal :=
  .next (whenIdle (setBacklight true) s)

/-- `BLTGL`: `BL <- 1 - BL` (41_backlight.md R82). -/
def execBltgl (s : State) : Host.Outcome State Fault Refusal :=
  .next (whenIdle (setBacklight (!s.bl)) s)

end Sys2Proof.Machine
end

