-- ==== Sys2Proof/Machine/Send.lean ====
section
/-! DEFINITION. The byte-transfer operations `CMD` and `DAT` (40_send.md R72, R73), and the trace of a byte transfer as
the big-step functions `Strobe` and `Send` give it (40_send.md R70, R71, R74). -/

namespace Sys2Proof.Machine

/-- `CMD b`: `Send(0, b)` (40_send.md R72). -/
def execCmd (b : Byte) (s : State) : Host.Outcome State Fault Refusal :=
  .next (whenIdle (transfer .command b) s)

/-- `DAT b`: `Send(1, b)` (40_send.md R73). -/
def execDat (b : Byte) (s : State) : Host.Outcome State Fault Refusal :=
  .next (whenIdle (transfer .data b) s)

/-- The operation that sends a byte in a mode: `CMD` or `DAT` (30_encoding.md R55). -/
def transferOp : Mode → Byte → Instr
  | .command, b => .cmd b
  | .data, b => .dat b

/-- The events of a fault-free `Strobe(c)` at the address `a`, with the build's delays (40_send.md R71). -/
def strobeTrace (dl : Delays) (a : DevAddr) (c : Byte) : List Event :=
  [.w a c, .w a (assertEnable c), .t dl.pulse, .w a (deassertEnable c), .t dl.settle]

/-- The ten events of a fault-free `Send(m, b)` with the backlight bit `bl` (40_send.md R70, R74). -/
def sendTrace (dl : Delays) (a : DevAddr) (m : Mode) (b : Byte) (bl : Bool) : List Event :=
  strobeTrace dl a (composeHi m b bl) ++ strobeTrace dl a (composeLo m b bl)

/-- The step of the k-th write of a byte transfer, k from 0 (40_send.md R77; 60_exceptions.md R102). -/
def writeStep : Nat → Sq
  | 0 => .s0
  | 1 => .s1
  | 2 => .s3
  | 3 => .s5
  | 4 => .s6
  | _ => .s8

/-- The value of the k-th write of a byte transfer, k from 0 (40_send.md R70, R71). -/
def writeValue (m : Mode) (b : Byte) (bl : Bool) : Nat → Byte
  | 0 => composeHi m b bl
  | 1 => assertEnable (composeHi m b bl)
  | 2 => deassertEnable (composeHi m b bl)
  | 3 => composeLo m b bl
  | 4 => assertEnable (composeLo m b bl)
  | _ => deassertEnable (composeLo m b bl)

end Sys2Proof.Machine
end

