-- ==== Sys2Proof/Machine/Dispatch.lean ====
section
/-! DEFINITION. One arm per operation (30_encoding.md R55). -/

namespace Sys2Proof.Machine

def exec (i : Instr) (s : State) : Host.Outcome State Fault Refusal :=
  match i with
  | .cmd b => Sys2Proof.Machine.execCmd b s
  | .dat b => Sys2Proof.Machine.execDat b s
  | .bloff => Sys2Proof.Machine.execBloff s
  | .blon => Sys2Proof.Machine.execBlon s
  | .bltgl => Sys2Proof.Machine.execBltgl s

end Sys2Proof.Machine
end

