-- ==== Sys2Proof/Machine/HostPort.lean ====
section
/-! DEFINITION. What the host does next: the requests it presents, one at a time (10_state.md R23), and its own delays
(42_host_sequences.md R96). -/

namespace Sys2Proof.Machine

/-- What the host does next, if anything. -/
def State.nextAction (s : State) : Option HostAction := s.hostScript.head?

/-- The action presents an operation (00_scope.md R9), and not a delay or a reserved word. -/
def HostAction.isOperation : HostAction → Bool
  | .wait _ => false
  | .request rq =>
    match decode rq with
    | .instr _ => true
    | .reserved _ => false

/-- The host has done it. -/
def popAction (s : State) : State := { s with hostScript := s.hostScript.tail }

/-- `WAIT d`: the host asks the clock itself; the trace gets one `T(d)` (42_host_sequences.md R96). -/
def hostWait (d : Nat) (s : State) : State := emit (.t d) s

/-- The block idle and `rq` the request the host presents next, before whatever else it had to do. -/
def presentNext (rq : Request) (s : State) : State :=
  { s with sq := .idle, hostScript := .request rq :: s.hostScript }

/-- The host's further actions, after those it still has to do. -/
def State.withHost (s : State) (acts : List HostAction) : State :=
  { s with hostScript := s.hostScript ++ acts }

/-- The bus transport's further scripted answers, after those already scripted. -/
def State.withBus (s : State) (answers : List BusAnswer) : State :=
  { s with busScript := s.busScript ++ answers }

end Sys2Proof.Machine
end

