-- ==== Sys2Proof/Machine/Step.lean ====
section
/-! DEFINITION. One step of the machine: from `Idle`, one whole operation of the host's, or one delay of its own; inside
an operation, which the block is left in only by a write that did not return, one event of the sequencer. -/

namespace Sys2Proof.Machine

/-- While `BUSY = 1` the port accepts nothing and the sequencer goes on (10_state.md R17, R23). At `Idle` the host's next
request is decoded and executed (30_encoding.md R54, R55), or refused if it is reserved (60_exceptions.md R105). With
nothing presented the block waits. -/
def step (s : State) : Host.Outcome State Fault Refusal :=
  if s.busy then .next (seqStep s)
  else
    match s.nextAction with
    | none => .next s
    | some (.wait d) => .next (hostWait d (popAction s))
    | some (.request rq) =>
      match decode rq with
      | .instr i => exec i (popAction s)
      | .reserved _ => .next (raiseIllegalRequest rq (popAction s))

/-- The request word `w` presented to the idle block, so that the next step takes it (10_state.md R23; log entry 5). A
request word has ten bits (30_encoding.md R50); `nbits` only says how many bits the host gives. -/
def State.withFetchWord (s : State) (_nbits w : Nat) : State := presentNext (BitVec.ofNat 10 w) s

end Sys2Proof.Machine
end

