-- ==== Sys2Proof/Machine/Assembler.lean ====
section
/-! DEFINITION. The assembler syntax of 30_encoding.md R61, one operation per line, over the characters of the line.
The spec's notation only (92_eei_decisions.md D18); the choices it leaves open are log entry 14. -/

namespace Sys2Proof.Machine

/-- What a line holds. -/
inductive AsmLine where
  | blank
  | op (i : Instr)
  | malformed
  deriving DecidableEq, Repr

/-- Skip the spaces that separate a mnemonic from its operand. -/
def skipSpaces : List Char → List Char
  | [] => []
  | c :: cs => if c = ' ' then skipSpaces cs else c :: cs

/-- Nothing more on the line: spaces, then the end or a comment. -/
def lineEnds (cs : List Char) : Bool :=
  match skipSpaces cs with
  | [] => true
  | c :: _ => c = ';'

/-- The value of a decimal digit. -/
def decDigit (c : Char) : Option Nat :=
  if 48 ≤ c.toNat ∧ c.toNat ≤ 57 then some (c.toNat - 48) else none

/-- The value of a hexadecimal digit, of either case. -/
def hexDigit (c : Char) : Option Nat :=
  if 48 ≤ c.toNat ∧ c.toNat ≤ 57 then some (c.toNat - 48)
  else if 65 ≤ c.toNat ∧ c.toNat ≤ 70 then some (c.toNat - 55)
  else if 97 ≤ c.toNat ∧ c.toNat ≤ 102 then some (c.toNat - 87)
  else none

/-- Read decimal digits onto `acc`; the number and the rest of the line. -/
def readDec (acc : Nat) : List Char → Nat × List Char
  | [] => (acc, [])
  | c :: cs =>
    match decDigit c with
    | some d => readDec (10 * acc + d) cs
    | none => (acc, c :: cs)

/-- A byte operand in decimal: at least one digit, the value 0..255. -/
def readDecByte : List Char → Option (Byte × List Char)
  | [] => none
  | c :: cs =>
    match decDigit c with
    | none => none
    | some d =>
      match readDec d cs with
      | (n, rest) => if n < 256 then some (BitVec.ofNat 8 n, rest) else none

/-- A byte operand: a character literal, `0xHH`, or decimal (30_encoding.md R61). The quote is character 39. -/
def readByte : List Char → Option (Byte × List Char)
  | [] => none
  | q :: cs =>
    if q.toNat = 39 then
      match cs with
      | c :: q' :: rest =>
        if q'.toNat = 39 ∧ c.toNat < 256 then some (BitVec.ofNat 8 c.toNat, rest) else none
      | _ => none
    else
      match q, cs with
      | '0', 'x' :: h :: l :: rest =>
        match hexDigit h, hexDigit l with
        | some x, some y => some (BitVec.ofNat 8 (16 * x + y), rest)
        | _, _ => none
      | _, _ => readDecByte (q :: cs)

/-- An operation with a byte operand, after its mnemonic. -/
def readOperand (mk : Byte → Instr) (cs : List Char) : AsmLine :=
  match cs with
  | ' ' :: rest =>
    match readByte (skipSpaces rest) with
    | some (b, tail) => if lineEnds tail then .op (mk b) else .malformed
    | none => .malformed
  | _ => .malformed

/-- An operation without an operand, after its mnemonic. -/
def readBare (i : Instr) (cs : List Char) : AsmLine := if lineEnds cs then .op i else .malformed

/-- One line of a program (30_encoding.md R61). -/
def assembleLine (line : List Char) : AsmLine :=
  match skipSpaces line with
  | [] => .blank
  | ';' :: _ => .blank
  | 'C' :: 'M' :: 'D' :: rest => readOperand .cmd rest
  | 'D' :: 'A' :: 'T' :: rest => readOperand .dat rest
  | 'B' :: 'L' :: 'O' :: 'F' :: 'F' :: rest => readBare .bloff rest
  | 'B' :: 'L' :: 'O' :: 'N' :: rest => readBare .blon rest
  | 'B' :: 'L' :: 'T' :: 'G' :: 'L' :: rest => readBare .bltgl rest
  | _ => .malformed

/-- A hexadecimal digit, upper case. -/
def hexChar (n : Nibble) : Char := if n.toNat < 10 then Char.ofNat (48 + n.toNat) else Char.ofNat (55 + n.toNat)

/-- A byte as `0xHH`. -/
def showByte (b : Byte) : List Char := ['0', 'x', hexChar (b.extractLsb' 4 4), hexChar (b.extractLsb' 0 4)]

/-- An operation in the syntax of 30_encoding.md R61. -/
def showLine : Instr → List Char
  | .cmd b => ['C', 'M', 'D', ' '] ++ showByte b
  | .dat b => ['D', 'A', 'T', ' '] ++ showByte b
  | .bloff => ['B', 'L', 'O', 'F', 'F']
  | .blon => ['B', 'L', 'O', 'N']
  | .bltgl => ['B', 'L', 'T', 'G', 'L']

end Sys2Proof.Machine
end

