-- ==== Sys2Proof/Machine/Construct.lean ====
section
/-! DEFINITION. Construction (70_reset_and_hazards.md R120) with its one exception, `ConfigurationError`
(60_exceptions.md R104), and the numbers of the causes (60_exceptions.md R100). -/

namespace Sys2Proof.Machine

/-- Every parameter a check rejects (60_exceptions.md R104; log entry 10). -/
def illegalParams (p : Params) : List ParamName :=
  (if p.widthOk then [] else [.width]) ++ (if p.maxLinesOk then [] else [.maxLines])
    ++ (if p.addressOk then [] else [.address])

/-- Construction, in a build with the delays `d`: with legal parameters the block of 10_state.md R26; otherwise "no block at all", before any bus traffic
(60_exceptions.md R104; 70_reset_and_hazards.md R120, R121). -/
def construct (d : Delays) (p : Params) : Host.Outcome State Fault Refusal :=
  match illegalParams p with
  | [] => .next (State.afterReset d p)
  | bad => .fault (.configurationError bad)

/-- The cause codes of 60_exceptions.md R100. -/
def Cause.code : Cause → Nat
  | .transportError => 1
  | .configurationError => 2
  | .illegalRequest => 3

end Sys2Proof.Machine
end

