-- ==== Sys2Proof/Machine/HostSeq.lean ====
section
/-! DEFINITION. The host's sequences (42_host_sequences.md): the named command bytes, the line addresses, the character
code, and the expansion of every pseudo-instruction into requests and delays (30_encoding.md R62). -/

namespace Sys2Proof.Machine

/-- The command bytes the source names (42_host_sequences.md R97). -/
inductive CommandName where
  | functionSet8bitInit
  | functionSet4bitInit
  | entryMode
  | displayOn
  | functionSetFinal
  | clearDisplay
  | addressLine1
  | addressLine2
  | addressLine3
  | addressLine4
  deriving DecidableEq, Repr

/-- The byte of each (42_host_sequences.md R97). -/
def CommandName.byte : CommandName → Byte
  | .functionSet8bitInit => 0x33#8
  | .functionSet4bitInit => 0x32#8
  | .entryMode => 0x06#8
  | .displayOn => 0x0C#8
  | .functionSetFinal => 0x28#8
  | .clearDisplay => 0x01#8
  | .addressLine1 => 0x80#8
  | .addressLine2 => 0xC0#8
  | .addressLine3 => 0x94#8
  | .addressLine4 => 0xD4#8

/-- An operation as the host presents it. -/
def present (i : Instr) : HostAction := .request (encode i)

/-- A named command byte as the host presents it. -/
def presentCommand (c : CommandName) : HostAction := present (.cmd c.byte)

/-- `INIT` (42_host_sequences.md R90): six commands in order, then the settle delay. -/
def initSeq : List HostAction :=
  [presentCommand .functionSet8bitInit, presentCommand .functionSet4bitInit, presentCommand .entryMode,
   presentCommand .displayOn, presentCommand .functionSetFinal, presentCommand .clearDisplay, .wait Config.tInit]

/-- `la(n)`: the four line addresses, and line 1's for every other n (42_host_sequences.md R91; 60_exceptions.md R113). -/
def lineAddress (n : Int) : CommandName :=
  if n = 2 then .addressLine2
  else if n = 3 then .addressLine3
  else if n = 4 then .addressLine4
  else .addressLine1

/-- `LINE n` (42_host_sequences.md R91). -/
def lineSeq (n : Int) : List HostAction := [presentCommand (lineAddress n)]

/-- `code(c)` (42_host_sequences.md R94), and none for a character whose code exceeds 255 (93_implementation_defined.md U7;
log entry 8). -/
def charCode (c : Char) : Option Byte := if c.toNat < 256 then some (BitVec.ofNat 8 c.toNat) else none

/-- The codes of a text, or none if one of its characters has none (93_implementation_defined.md U7). -/
def textCodes : List Char → Option (List Byte)
  | [] => some []
  | c :: cs =>
    match charCode c, textCodes cs with
    | some b, some bs => some (b :: bs)
    | _, _ => none

/-- The space character, 0x20 (42_host_sequences.md R94). -/
def spaceCode : Byte := 0x20#8

/-- Exactly `width` codes: the text's first ones in order, then spaces (42_host_sequences.md R93). -/
def padLine : Nat → List Byte → List Byte
  | 0, _ => []
  | n + 1, [] => spaceCode :: padLine n []
  | n + 1, b :: bs => b :: padLine n bs

/-- `PUTC c` (42_host_sequences.md R92). -/
def putcSeq (c : Char) : Option (List HostAction) :=
  match charCode c with
  | some b => some [present (.dat b)]
  | none => none

/-- `WRLINE "text", n` for a panel `width` characters wide (42_host_sequences.md R93). -/
def wrlineSeq (width : Nat) (text : List Char) (n : Int) : Option (List HostAction) :=
  match textCodes text with
  | some codes => some (lineSeq n ++ (padLine width codes).map (fun b => present (.dat b)))
  | none => none

/-- The expansion of a line of a host program (30_encoding.md R62); none where the spec gives it no expansion
(93_implementation_defined.md U7). -/
def expand (width : Nat) : Pseudo → Option (List HostAction)
  | .op i => some [present i]
  | .init => some initSeq
  | .line n => some (lineSeq n)
  | .putc c => putcSeq c
  | .wrline text n => wrlineSeq width text n
  | .wait d => some [.wait d]

/-- The expansion of a host program, line after line (42_host_sequences.md; 70_reset_and_hazards.md R134). -/
def expandAll (width : Nat) : List Pseudo → Option (List HostAction)
  | [] => some []
  | p :: ps =>
    match expand width p, expandAll width ps with
    | some xs, some ys => some (xs ++ ys)
    | _, _ => none

/-- The expansion of a line against an encoder: "The host reads `WIDTH` from the encoder's register" (42_host_sequences.md
R93; 10_state.md R12). That register never changes, so it is the constant the host supplied at construction
(40_send.md R86). -/
def State.expandLine (s : State) (p : Pseudo) : Option (List HostAction) := expand s.width p

/-- The expansion of a host program against an encoder, in the same way. -/
def State.expandProgram (s : State) (ps : List Pseudo) : Option (List HostAction) := expandAll s.width ps

end Sys2Proof.Machine
end

