-- ==== Sys2Proof/Machine/HostRun.lean ====
section
/-! DEFINITION. Runs of the machine: a number of steps, a host with a program, and a host that gives up at the first fault,
as the source's own does in `INIT`: "If a write fails, `INIT` stops with that `CMD`'s fault; the remaining commands are not
sent" (42_host_sequences.md R90). A script in `hostScript` goes on
after a fault, as the host may (70_reset_and_hazards.md R135; 95_test_vectors.md P4). -/

namespace Sys2Proof.Machine

/-- `n` steps of the machine (Host/Core.lean's `run` of it, on the machine's own types). -/
def runSteps : Nat → State → Host.Outcome State Fault Refusal
  | 0, s => .next s
  | n + 1, s =>
    match step s with
    | .next t => runSteps n t
    | .fault f => .fault f
    | .refused r => .refused r

/-- The encoder with a host that has the program `ps` still to run, expanded with the encoder's own `WIDTH`
(42_host_sequences.md R93; 70_reset_and_hazards.md R134); none where the spec gives it no expansion. -/
def State.withProgram (s : State) (ps : List Pseudo) : Option State :=
  match s.expandProgram ps with
  | some acts => some (s.withHost acts)
  | none => none

/-- A fault at the host port. -/
def Answer.isFault : Answer → Bool
  | .done => false
  | .fault _ _ _ => true

/-- Between `s` and `t` the host port answered with a fault. -/
def faultBetween (s t : State) : Bool := (t.answers.drop s.answers.length).any Answer.isFault

/-- The host does `acts` one after the other, each a step of the machine, and stops at the first fault, or with a write
that does not return. -/
def runUntilFault : List HostAction → State → Host.Outcome State Fault Refusal
  | [], s => .next s
  | a :: rest, s =>
    match step { s with hostScript := a :: s.hostScript } with
    | .next t => if t.busy || faultBetween s t then .next t else runUntilFault rest t
    | .fault f => .fault f
    | .refused r => .refused r

end Sys2Proof.Machine
end

