-- ==== Sys2Proof/Machine/Observe.lean ====
section
/-! DEFINITION. What an observer reads off a trace (20_memory.md R45): the written values, the adapter's register
(10_state.md R22; 70_reset_and_hazards.md R129), the falling edges and what they latch (40_send.md R76), the lower bound on time
(40_send.md R75), and the fault-free trace of a host's script. -/

namespace Sys2Proof.Machine

/-- The value an event puts, or tries to put, on the bus. -/
def Event.value : Event → Option Byte
  | .w _ v => some v
  | .wf _ v => some v
  | .t _ => none

/-- The address an event uses. -/
def Event.address : Event → Option DevAddr
  | .w a _ => some a
  | .wf a _ => some a
  | .t _ => none

/-- A failed write (20_memory.md R45). -/
def Event.failed : Event → Bool
  | .w _ _ => false
  | .wf _ _ => true
  | .t _ => false

/-- The values of the successful writes to `a`, in order (20_memory.md R45: what the adapter sees). -/
def writesTo (a : DevAddr) : List Event → List Byte
  | [] => []
  | .w a' v :: es => if a' = a then v :: writesTo a es else writesTo a es
  | .wf _ _ :: es => writesTo a es
  | .t _ :: es => writesTo a es

/-- `PORT` at the bus address `k` after the events `es`, from what was known of it before: the value of the last
successful write; unspecified after a failed one (10_state.md R22; 93_implementation_defined.md U3). -/
def portAfter (k : Nat) : Option Byte → List Event → Option Byte
  | known, [] => known
  | known, .w a v :: es => portAfter k (if (busAddress a).toNat = k then some v else known) es
  | known, .wf a _ :: es => portAfter k (if (busAddress a).toNat = k then none else known) es
  | known, .t _ :: es => portAfter k known es

/-- The falling edges of a run of written values: consecutive values, the first with the enable bit set and the second
with it clear (00_scope.md R9; 40_send.md R76). -/
def fallingEdges : List Byte → List (Byte × Byte)
  | [] => []
  | [_] => []
  | v1 :: v2 :: vs =>
    if enableField v1 && !enableField v2 then (v1, v2) :: fallingEdges (v2 :: vs) else fallingEdges (v2 :: vs)

/-- What a trace makes the controller at `a` latch: at each falling edge the mode and the nibble (40_send.md R76). -/
def latched (a : DevAddr) (es : List Event) : List (Mode × Nibble) :=
  (fallingEdges (writesTo a es)).map (fun e => (modeField e.2, dataField e.2))

/-- The bytes a consumer recovers by pairing the latched nibbles, `{n1, n2}` (40_send.md R76; 20_memory.md R36). R76 says it of
fault-free transfers, and leaves how the controller pairs nibbles outside the block. DESIGN CHOICE (log entry 19, unsafe): on
any other list the nibbles are paired from the list's first one on, a pair has its first nibble's mode where the two differ,
and an odd last nibble is dropped. -/
def pairNibbles : List (Mode × Nibble) → List (Mode × Byte)
  | [] => []
  | [_] => []
  | (m, n1) :: (_, n2) :: rest => (m, n1 ++ n2) :: pairNibbles rest

/-- The sum of the requested minimum delays: the lower bound on the time a trace takes (40_send.md R75). -/
def totalDelay : List Event → Nat
  | [] => 0
  | .t d :: es => d + totalDelay es
  | .w _ _ :: es => totalDelay es
  | .wf _ _ :: es => totalDelay es

/-- How many events are successful writes (40_send.md R74). -/
def countWrites : List Event → Nat
  | [] => 0
  | .w _ _ :: es => countWrites es + 1
  | .wf _ _ :: es => countWrites es
  | .t _ :: es => countWrites es

/-- How many events are delays (40_send.md R74). -/
def countDelays : List Event → Nat
  | [] => 0
  | .t _ :: es => countDelays es + 1
  | .w _ _ :: es => countDelays es
  | .wf _ _ :: es => countDelays es

/-- `BL` after an operation (41_backlight.md R80, R81, R82). -/
def blAfter (bl : Bool) : Instr → Bool
  | .cmd _ => bl
  | .dat _ => bl
  | .bloff => false
  | .blon => true
  | .bltgl => !bl

/-- The events of an operation with no failing write (40_send.md R72, R73; 41_backlight.md R83). -/
def opTrace (dl : Delays) (a : DevAddr) (bl : Bool) : Instr → List Event
  | .cmd b => sendTrace dl a .command b bl
  | .dat b => sendTrace dl a .data b bl
  | .bloff => []
  | .blon => []
  | .bltgl => []

/-- `BL` after a host's script; a reserved request changes nothing (60_exceptions.md R105). -/
def scriptBl (bl : Bool) : List HostAction → Bool
  | [] => bl
  | .wait _ :: rest => scriptBl bl rest
  | .request rq :: rest =>
    match decode rq with
    | .instr i => scriptBl (blAfter bl i) rest
    | .reserved _ => scriptBl bl rest

/-- The events of a host's script with no failing write: those of its operations in order, with nothing in between
(20_memory.md R40; 40_send.md R78), and one delay for each `WAIT` (42_host_sequences.md R96). -/
def scriptTrace (dl : Delays) (a : DevAddr) (bl : Bool) : List HostAction → List Event
  | [] => []
  | .wait d :: rest => .t d :: scriptTrace dl a bl rest
  | .request rq :: rest =>
    match decode rq with
    | .instr i => opTrace dl a bl i ++ scriptTrace dl a (blAfter bl i) rest
    | .reserved _ => scriptTrace dl a bl rest

/-- How many bus writes a host's script makes when none fails: six for each byte transfer (40_send.md R74). -/
def scriptWrites : List HostAction → Nat
  | [] => 0
  | .wait _ :: rest => scriptWrites rest
  | .request rq :: rest =>
    match decode rq with
    | .instr (.cmd _) => 6 + scriptWrites rest
    | .instr (.dat _) => 6 + scriptWrites rest
    | .instr .bloff => scriptWrites rest
    | .instr .blon => scriptWrites rest
    | .instr .bltgl => scriptWrites rest
    | .reserved _ => scriptWrites rest

/-- The answers of a host's script when no write fails (10_state.md R23; 60_exceptions.md R105). -/
def scriptAnswers : List HostAction → List Answer
  | [] => []
  | .wait _ :: rest => scriptAnswers rest
  | .request rq :: rest =>
    match decode rq with
    | .instr _ => .done :: scriptAnswers rest
    | .reserved _ => .fault .illegalRequest .idle (some rq) :: scriptAnswers rest

end Sys2Proof.Machine
end

