-- ==== Sys2Proof/Safety.lean ====
section
/-! DEFINITION. The named premises of claims (70_reset_and_hazards.md R136), the end of a run (70_reset_and_hazards.md R134),
the host's duties that can be said of its program (70_reset_and_hazards.md R135; 42_host_sequences.md R95), and the two
invariants every step keeps. -/

namespace Sys2Proof.Machine

/-! ### Premises (70_reset_and_hazards.md R136) -/

/-- `BusAnswers`, for the next `n` writes: each returns, with `Ok` or `Err`. -/
def State.BusAnswers (n : Nat) (s : State) : Prop := ∀ i, i < n → s.answerAhead i ≠ .never

/-- `BusOk`, for the next `n` writes: each returns `Ok`. -/
def State.BusOk (n : Nat) (s : State) : Prop := ∀ i, i < n → s.answerAhead i = .ok

/-- `NoFault`: `TF = 0`. -/
def State.NoFault (s : State) : Prop := s.tf = false

/-- The trace of `INIT` under the backlight bit `bl` (42_host_sequences.md R90). -/
def initTrace (dl : Delays) (a : DevAddr) (bl : Bool) : List Event := scriptTrace dl a bl initSeq

/-- `Initialised`: the trace begins with that of `INIT` under one value of `BL`, with no `WF` in it. R136 names the 36 writes
and `T(T_INIT)`. DESIGN CHOICE (log entry 23, unsafe): the beginning is exactly `INIT`'s own trace, so a trace with a further
`T` event of a host's `WAIT` between the six commands, or between the last of them and `T(T_INIT)`, does not count, nor does one that ends `INIT` by a
single longer delay, `T(d)` with `d` above `T_INIT`, where R123 asks for "at least `T_INIT`". -/
def State.Initialised (s : State) : Prop := ∃ bl rest, s.trace = initTrace s.delays s.addr bl ++ rest

/-! ### The end of a run (70_reset_and_hazards.md R134) -/

/-- Every operation has been answered and the block is idle: the host has no operation left to present. A delay of its own that
it still has to do, as at the end of `INIT`, is no operation (00_scope.md R9; 42_host_sequences.md R96). -/
def State.Ended (s : State) : Prop := (∀ a, a ∈ s.hostScript → a.isOperation = false) ∧ s.sq = .idle

/-- Ended, with `TF = 0` and every answer `Done`. R134 names no start of a run. DESIGN CHOICE (log entry 21, unsafe): "every
answer" is every answer since construction, as `TF` is every write's since construction; so no run after an earlier
`IllegalRequest` ends well. -/
def State.EndedWell (s : State) : Prop := s.Ended ∧ s.NoFault ∧ ∀ a, a ∈ s.answers → a = .done

/-! ### The host's duties (70_reset_and_hazards.md R135) -/

/-- The line keeps to lines 1..`MAX_LINES` (42_host_sequences.md R95). What counts as "normal printing" is left open. DESIGN
CHOICE (log entry 22, unsafe): every `LINE` and `WRLINE` counts, and no plain `CMD`, so that `CMD 0x94` with
`MAX_LINES = 2` passes. -/
def Pseudo.keepsToLines (maxLines : Nat) : Pseudo → Bool
  | .op _ => true
  | .init => true
  | .line n => decide (1 ≤ n ∧ n ≤ maxLines)
  | .putc _ => true
  | .wrline _ n => decide (1 ≤ n ∧ n ≤ maxLines)
  | .wait _ => true

/-- The duty on lines against an encoder: the host reads `MAX_LINES` (10_state.md R13). -/
def State.keepsToLines (s : State) (ps : List Pseudo) : Bool := ps.all (Pseudo.keepsToLines s.maxLines.toNat)

/-- `INIT` runs once, before any other byte transfer; backlight operations and delays may precede it
(70_reset_and_hazards.md R123). DESIGN CHOICE (log entry 20, unsafe): only the pseudo-instruction counts as `INIT`. A program
that spells out the six `CMD` and the `WAIT` does not meet the duty in this form, and a second `INIT` that is spelled out is
not seen. A program with no byte transfer and no `INIT`, empty or of backlight operations and `WAIT` alone, meets it: there is
no other byte transfer for `INIT` to come before. -/
def initFirst : List Pseudo → Bool
  | [] => true
  | .init :: ps => ps.all (fun p => decide (p ≠ .init))
  | .op .bloff :: ps => initFirst ps
  | .op .blon :: ps => initFirst ps
  | .op .bltgl :: ps => initFirst ps
  | .wait _ :: ps => initFirst ps
  | .op (.cmd _) :: _ => false
  | .op (.dat _) :: _ => false
  | .line _ :: _ => false
  | .putc _ :: _ => false
  | .wrline _ _ :: _ => false

/-! ### Invariants -/

/-- A construction's conditions, of the registers (60_exceptions.md R104; 10_state.md R12, R13), and a build's, of the delays
(70_reset_and_hazards.md R125; log entry 13). `ADDR` needs none. -/
def State.ConfigLegal (s : State) : Prop :=
  1 ≤ s.width ∧ 1 ≤ s.maxLines.toNat ∧ s.maxLines.toNat ≤ 4 ∧ s.delays.wf = true

/-- An event that goes to `a` with bit 1 of its value clear, or a delay (10_state.md R11; 30_encoding.md R58). -/
def Event.cleanAt (a : DevAddr) : Event → Prop
  | .w a' v => a' = a ∧ v.getLsbD 1 = false
  | .wf a' v => a' = a ∧ v.getLsbD 1 = false
  | .t _ => True

/-- The invariant of the records: the configuration is legal, the registers behind the bus are in canonical form and hold
what the trace says (10_state.md R22), every write went to `ADDR` with bit 1 clear, and `TF` says whether a write failed
(10_state.md R19). -/
structure State.Inv (s : State) : Prop where
  configLegal : s.ConfigLegal
  memWf       : Memory.wf s.mem = true
  port        : ∀ k, Memory.read s.mem k = portAfter k none s.trace
  clean       : ∀ e, e ∈ s.trace → e.cleanAt s.addr
  faultFlag   : s.tf = true ↔ ∃ e, e ∈ s.trace ∧ e.failed = true

/-- The enable line is low after the events `es`, as far as they say (70_reset_and_hazards.md R129). -/
def EnableLow (a : DevAddr) (es : List Event) : Prop :=
  ∀ v, (writesTo a es).getLast? = some v → enableField v = false

/-- At every falling edge the other lines are the same before and after (70_reset_and_hazards.md R126; 40_send.md R76). -/
def EdgesStable (a : DevAddr) (es : List Event) : Prop :=
  ∀ e, e ∈ fallingEdges (writesTo a es) → e.2 = deassertEnable e.1

/-- The invariant of the lines, of a history with no fault: the trace is that of finished operations, which left the
enable line low and the lines stable at every falling edge, and then the events of the operation in progress before
the current step (10_state.md R17; 70_reset_and_hazards.md R126). -/
def State.LineInv (s : State) : Prop :=
  s.tf = false →
    ∃ before, s.trace = before ++ (sendTrace s.delays s.addr s.opm s.opb s.opl).take s.sq.index ∧
      EnableLow s.addr before ∧ EdgesStable s.addr before

end Sys2Proof.Machine
end

