-- ==== Sys2Proof/Certificates/Slice0/Obligations.lean ====
section
/-! DEFINITION. The statements, in the order of OBLIGATIONS.json. -/

open Sys2Proof Sys2Proof.Machine

/-! ### Construction and reset -/

/-- 70_reset_and_hazards.md R120: construction with legal parameters gives the block of R26, with illegal ones no block;
reset is construction with the defaults. -/
def Obligations.ConstructionGivesTheResetStateOrNoBlock : Prop :=
  (∀ (d : Delays) (p : Params), 1 ≤ p.width → 1 ≤ p.maxLines → p.maxLines ≤ 4 → p.address ≤ 0x7F →
    ∃ s, construct d p = .next s ∧ s.addr.toNat = p.address ∧ (s.width : Int) = p.width ∧
      (s.maxLines.toNat : Int) = p.maxLines ∧ s.bl = p.backlightEnabled ∧
      s.sq = .idle ∧ s.busy = false ∧ s.tf = false ∧ s.trace = []) ∧
  (∀ (d : Delays) (p : Params), (p.width < 1 ∨ p.maxLines < 1 ∨ 4 < p.maxLines ∨ 0x7F < p.address) →
    ∃ bad, construct d p = .fault (.configurationError bad)) ∧
  construct Config.defaultDelays ⟨0x27, 16, 2, true⟩ = .next State.reset ∧
  State.reset.addr = 0x27#7 ∧ State.reset.width = 16 ∧ State.reset.maxLines = 2#3 ∧ State.reset.bl = true ∧
  State.reset.sq = .idle ∧ State.reset.busy = false ∧ State.reset.tf = false ∧ State.reset.trace = []

/-- 60_exceptions.md R104 and log entry 10 (the model's choice: every illegal parameter is recorded). -/
def Obligations.ConfigurationErrorNamesTheIllegalParameters : Prop :=
  ∀ (d : Delays) (p : Params) (bad : List ParamName), construct d p = .fault (.configurationError bad) →
    (ParamName.width ∈ bad ↔ p.width < 1) ∧
    (ParamName.maxLines ∈ bad ↔ (p.maxLines < 1 ∨ 4 < p.maxLines)) ∧
    (ParamName.address ∈ bad ↔ 0x7F < p.address)

/-! ### Invariants -/

/-- The invariant of the records holds at reset. -/
def Obligations.ResetSatisfiesTheRecordInvariant : Prop := State.reset.Inv

/-- The invariant of the records is kept by every step, from every state that meets it: canonical memory, the adapter's
register as the trace says (10_state.md R22), every write to `ADDR` with bit 1 clear (30_encoding.md R58), `TF` telling
whether a write failed (10_state.md R19), a legal configuration and
delays of at least 0.5 ms (70_reset_and_hazards.md R125; log entry 13). What `mem` holds after a failed write is log entry 4. -/
def Obligations.StepKeepsTheRecordInvariant : Prop :=
  ∀ s t : State, s.Inv → step s = .next t → t.Inv

/-- The invariant of the lines holds at reset. -/
def Obligations.ResetSatisfiesTheLineInvariant : Prop := State.reset.LineInv

/-- The invariant of the lines (70_reset_and_hazards.md R126; 10_state.md R17) is kept by every step. -/
def Obligations.StepKeepsTheLineInvariant : Prop :=
  ∀ s t : State, s.LineInv → step s = .next t → t.LineInv

/-- 70_reset_and_hazards.md R126 and 40_send.md R76, for histories with `TF = 0` (log entry 12): at every falling edge of
the trace the lines but the enable line are the same before and after. The premise is the line invariant. -/
def Obligations.LinesAreStableAtFallingEdges : Prop :=
  ∀ s : State, s.LineInv → s.NoFault → EdgesStable s.addr s.trace

/-! ### CMD and DAT -/

/-- 40_send.md R72, whole: encoding, the fault-free result, the six written values for either `BL`, bit 0, the registers,
the one exception and `TF`, the corner cases and the example. -/
def Obligations.CmdSendsTheByteAsACommand : Prop :=
  (∀ b, encode (.cmd b) = 0b00#2 ++ b) ∧
  (∀ (b : Byte) (s : State), s.sq = .idle → s.BusOk 6 →
    ∃ t, exec (.cmd b) s = .next t ∧ t.trace = s.trace ++ sendTrace s.delays s.addr .command b s.bl ∧
      t.addr = s.addr ∧ t.width = s.width ∧ t.maxLines = s.maxLines ∧ t.bl = s.bl ∧ t.tf = s.tf ∧ t.sq = .idle) ∧
  (∀ (b : Byte) (dl : Delays) (a : DevAddr), writesTo a (sendTrace dl a .command b true) =
    [hi b ||| 0x08#8, hi b ||| 0x0C#8, hi b ||| 0x08#8, lo b ||| 0x08#8, lo b ||| 0x0C#8, lo b ||| 0x08#8]) ∧
  (∀ (b : Byte) (dl : Delays) (a : DevAddr), writesTo a (sendTrace dl a .command b false) =
    [hi b, hi b ||| 0x04#8, hi b, lo b, lo b ||| 0x04#8, lo b]) ∧
  (∀ (b : Byte) (dl : Delays) (a : DevAddr) (bl : Bool) (v : Byte), v ∈ writesTo a (sendTrace dl a .command b bl) →
    v.getLsbD 0 = false) ∧
  (∀ (b : Byte) (s : State) (k : Nat), s.sq = .idle → k < 6 → s.BusOk k → s.answerAhead k = .err →
    ∃ t, exec (.cmd b) s = .next t ∧ t.answers = s.answers ++ [.fault .transportError (writeStep k) none] ∧
      t.addr = s.addr ∧ t.width = s.width ∧ t.maxLines = s.maxLines ∧ t.bl = s.bl ∧ t.tf = true) ∧
  (∀ (b : Byte) (s t : State), s.sq = .idle → exec (.cmd b) s = .next t → s.tf = false → t.tf = true →
    ∃ k, k < 6 ∧ s.BusOk k ∧ s.answerAhead k = .err) ∧
  (∀ dl a, writesTo a (sendTrace dl a .command 0x00#8 false) = [0x00#8, 0x04#8, 0x00#8, 0x00#8, 0x04#8, 0x00#8]) ∧
  (∀ dl a, writesTo a (sendTrace dl a .command 0xFF#8 true) = [0xF8#8, 0xFC#8, 0xF8#8, 0xF8#8, 0xFC#8, 0xF8#8]) ∧
  (∀ dl a bl, sendTrace dl a .command 0x33#8 bl =
    strobeTrace dl a (composeHi .command 0x33#8 bl) ++ strobeTrace dl a (composeHi .command 0x33#8 bl)) ∧
  writesTo 0x27#7 (sendTrace Config.defaultDelays 0x27#7 .command 0x28#8 true) = [0x28#8, 0x2C#8, 0x28#8, 0x88#8, 0x8C#8, 0x88#8]

/-- 40_send.md R73, whole: as for `CMD`, with bit 0 set, and the source's fixture. -/
def Obligations.DatSendsTheByteAsData : Prop :=
  (∀ b, encode (.dat b) = 0b01#2 ++ b) ∧
  (∀ (b : Byte) (s : State), s.sq = .idle → s.BusOk 6 →
    ∃ t, exec (.dat b) s = .next t ∧ t.trace = s.trace ++ sendTrace s.delays s.addr .data b s.bl ∧
      t.addr = s.addr ∧ t.width = s.width ∧ t.maxLines = s.maxLines ∧ t.bl = s.bl ∧ t.tf = s.tf ∧ t.sq = .idle) ∧
  (∀ (b : Byte) (dl : Delays) (a : DevAddr), writesTo a (sendTrace dl a .data b true) =
    [hi b ||| 0x09#8, hi b ||| 0x0D#8, hi b ||| 0x09#8, lo b ||| 0x09#8, lo b ||| 0x0D#8, lo b ||| 0x09#8]) ∧
  (∀ (b : Byte) (dl : Delays) (a : DevAddr), writesTo a (sendTrace dl a .data b false) =
    [hi b ||| 0x01#8, hi b ||| 0x05#8, hi b ||| 0x01#8, lo b ||| 0x01#8, lo b ||| 0x05#8, lo b ||| 0x01#8]) ∧
  (∀ (b : Byte) (dl : Delays) (a : DevAddr) (bl : Bool) (v : Byte), v ∈ writesTo a (sendTrace dl a .data b bl) →
    v.getLsbD 0 = true) ∧
  (∀ (b : Byte) (s : State) (k : Nat), s.sq = .idle → k < 6 → s.BusOk k → s.answerAhead k = .err →
    ∃ t, exec (.dat b) s = .next t ∧ t.answers = s.answers ++ [.fault .transportError (writeStep k) none] ∧
      t.addr = s.addr ∧ t.width = s.width ∧ t.maxLines = s.maxLines ∧ t.bl = s.bl ∧ t.tf = true) ∧
  (∀ (b : Byte) (s t : State), s.sq = .idle → exec (.dat b) s = .next t → s.tf = false → t.tf = true →
    ∃ k, k < 6 ∧ s.BusOk k ∧ s.answerAhead k = .err) ∧
  (∀ dl a, writesTo a (sendTrace dl a .data 0x00#8 false) = [0x01#8, 0x05#8, 0x01#8, 0x01#8, 0x05#8, 0x01#8]) ∧
  (∀ dl a, writesTo a (sendTrace dl a .data 0xFF#8 true) = [0xF9#8, 0xFD#8, 0xF9#8, 0xF9#8, 0xFD#8, 0xF9#8]) ∧
  (∀ (b : Byte) (dl : Delays) (a : DevAddr) (bl : Bool), writesTo a (sendTrace dl a .data b bl) =
    (writesTo a (sendTrace dl a .command b bl)).map (fun v => v ||| 0x01#8)) ∧
  writesTo 0x27#7 (sendTrace Config.defaultDelays 0x27#7 .data 0x41#8 true) = [0x49#8, 0x4D#8, 0x49#8, 0x19#8, 0x1D#8, 0x19#8]

/-- The whole next state of a byte transfer whose six writes succeed. The latches, unspecified at `Idle`, are free values
(log entry 2); the six answers taken are the model's (log entry 1). -/
def Obligations.ByteTransferHasExactlyThisNextState : Prop :=
  ∀ (m : Mode) (b : Byte) (s : State), s.sq = .idle → s.BusOk 6 →
    exec (transferOp m b) s = .next { takeAnswers 6 s with
      sq := .idle
      opm := Config.freeOpm s.latchDrawn
      opb := Config.freeOpb s.latchDrawn
      opl := Config.freeOpl s.latchDrawn
      latchDrawn := s.latchDrawn + 1
      mem := Memory.write s.mem (busAddress s.addr).toNat (composeLo m b s.bl)
      trace := s.trace ++ sendTrace s.delays s.addr m b s.bl
      answers := s.answers ++ [.done] }

/-- The frame of `CMD` and `DAT`, in every state and for every behaviour of the bus; the address stored to is the bus
address of `ADDR`. Memory read by `Memory.read`, an observer's view. -/
def Obligations.ByteTransferFrame : Prop :=
  ∀ (m : Mode) (b : Byte) (s t : State), exec (transferOp m b) s = .next t →
    t.addr = s.addr ∧ t.width = s.width ∧ t.maxLines = s.maxLines ∧ t.delays = s.delays ∧ t.bl = s.bl ∧
    t.hostScript = s.hostScript ∧ (t.tf = s.tf ∨ t.tf = true) ∧
    (∃ new, t.trace = s.trace ++ new) ∧ (∃ new, t.answers = s.answers ++ new) ∧
    (∀ a, a ≠ (busAddress s.addr).toNat → Memory.read t.mem a = Memory.read s.mem a)

/-- 40_send.md R74: a fault-free byte transfer is six successful writes and four delays in this order, all to `ADDR`, with
two falling edges, the high nibble first. -/
def Obligations.ByteTransferIsSixWritesAndFourDelays : Prop :=
  ∀ (m : Mode) (b : Byte) (s : State), s.sq = .idle → s.BusOk 6 →
    ∃ t hiByte loByte, exec (transferOp m b) s = .next t ∧
      hiByte = composeHi m b s.bl ∧ loByte = composeLo m b s.bl ∧
      t.trace = s.trace ++
        [.w s.addr hiByte, .w s.addr (hiByte ||| 0x04#8), .t s.delays.pulse, .w s.addr hiByte, .t s.delays.settle,
         .w s.addr loByte, .w s.addr (loByte ||| 0x04#8), .t s.delays.pulse, .w s.addr loByte, .t s.delays.settle] ∧
      countWrites (t.trace.drop s.trace.length) = 6 ∧ countDelays (t.trace.drop s.trace.length) = 4 ∧
      (fallingEdges (writesTo s.addr (t.trace.drop s.trace.length))).map (fun e => dataField e.2) =
        [highNibble b, lowNibble b]

/-- 40_send.md R77: the only exception of a byte transfer is `TransportError`, at a write step; if its k-th write fails (k
from 0 here), the trace is the fault-free one cut before that write, then `WF` with the same value. -/
def Obligations.ByteTransferFailsOnlyAtAWrite : Prop :=
  (∀ (m : Mode) (b : Byte) (s : State) (k : Nat), s.sq = .idle → k < 6 → s.BusOk k → s.answerAhead k = .err →
    ∃ t, exec (transferOp m b) s = .next t ∧
      (sendTrace s.delays s.addr m b s.bl)[(writeStep k).index]? = some (.w s.addr (writeValue m b s.bl k)) ∧
      t.trace = s.trace ++ (sendTrace s.delays s.addr m b s.bl).take (writeStep k).index ++
        [.wf s.addr (writeValue m b s.bl k)] ∧
      t.sq = .idle ∧ t.tf = true ∧ t.answers = s.answers ++ [.fault .transportError (writeStep k) none]) ∧
  (∀ (m : Mode) (b : Byte) (s t : State), s.sq = .idle → exec (transferOp m b) s = .next t →
    ∀ cause at' word, Answer.fault cause at' word ∈ t.answers → Answer.fault cause at' word ∉ s.answers →
      cause = .transportError ∧ ∃ k, k < 6 ∧ at' = writeStep k)

/-- 60_exceptions.md R109: a write that never returns leaves the block at its step, busy, for ever: no event, no `TF`, no
answer. "No step enabled" is here a step to the same state (log entry 6). -/
def Obligations.HungWriteHangsTheBlockForEver : Prop :=
  (∀ (s : State) (v : Byte), s.micro = some (.write v) → s.busAnswer = .never →
    ∀ n, runSteps n s = .next s) ∧
  (∀ (m : Mode) (b : Byte) (s : State) (k : Nat), s.sq = .idle → k < 6 → s.BusOk k → s.answerAhead k = .never →
    ∃ t, exec (transferOp m b) s = .next t ∧ t.sq = writeStep k ∧ t.busy = true ∧
      t.trace = s.trace ++ (sendTrace s.delays s.addr m b s.bl).take (writeStep k).index ∧
      t.tf = s.tf ∧ t.answers = s.answers ∧ ∀ n, runSteps n t = .next t)

/-- 10_state.md R17, its derived sentence that the sequencer and the big-step `Send` give the same traces: a byte transfer
is what the machine's own steps make of the accepted operation. -/
def Obligations.ByteTransferIsTheSequencersRun : Prop :=
  ∀ (m : Mode) (b : Byte) (s : State), s.sq = .idle →
    ∃ n, n ≤ 10 ∧ runSteps n (acceptTransfer m b s) = exec (transferOp m b) s

/-- 40_send.md R79: every write of a byte transfer goes to `ADDR`, zero-extended at the port, whatever the operand. -/
def Obligations.EveryWriteOfATransferGoesToAddr : Prop :=
  (∀ a : DevAddr, (busAddress a).toNat = a.toNat) ∧
  (∀ (m : Mode) (b : Byte) (s t : State), exec (transferOp m b) s = .next t →
    ∃ new, t.trace = s.trace ++ new ∧ ∀ e, e ∈ new → ∀ a, e.address = some a → a = s.addr)

/-- 70_reset_and_hazards.md R129 (its table, derived there from R102 and R22): what the successful writes before a failed
one have left, by the failing write k from 0, and the nibbles already latched. A fault at `S3` or `S8` leaves the
enable line asserted. -/
def Obligations.FaultLeavesTheseWritesBehindTheBus : Prop :=
  ∀ (m : Mode) (b : Byte) (s : State) (k : Nat), s.sq = .idle → k < 6 → s.BusOk k → s.answerAhead k = .err →
    ∃ t new, exec (transferOp m b) s = .next t ∧ t.trace = s.trace ++ new ∧
      (writesTo s.addr new).getLast? =
        [none, some (composeHi m b s.bl), some (assertEnable (composeHi m b s.bl)), some (composeHi m b s.bl),
          some (composeLo m b s.bl), some (assertEnable (composeLo m b s.bl))].getD k none ∧
      latched s.addr new = (if k < 3 then [] else [(m, highNibble b)])

/-- 40_send.md R76 (derived there): a fault-free transfer latches the two nibbles, pairing them gives the mode and the byte
back, whatever the backlight, so two transfers with the same trace sent the same byte in the same mode. -/
def Obligations.LatchedNibblesAreTheOperand : Prop :=
  (∀ (dl : Delays) (a : DevAddr) (m : Mode) (b : Byte) (bl : Bool),
    latched a (sendTrace dl a m b bl) = [(m, highNibble b), (m, lowNibble b)] ∧
    pairNibbles (latched a (sendTrace dl a m b bl)) = [(m, b)]) ∧
  (∀ (dl : Delays) (a : DevAddr) (m m' : Mode) (b b' : Byte) (bl : Bool),
    sendTrace dl a m b bl = sendTrace dl a m' b' bl → m = m' ∧ b = b')

/-- 70_reset_and_hazards.md R125: with enable asserted at least 0.5 ms before it is deasserted, and at least 0.5 ms after
that before the next write; in the trace and at the sequencer's steps. The premises, a build whose delays are that long and a
legal configuration, are kept by every step (StepKeepsTheRecordInvariant). -/
def Obligations.StrobeKeepsBothMinimumDelays : Prop :=
  (∀ (dl : Delays) (a : DevAddr) (c : Byte), dl.wf = true → ∃ d d', 500 ≤ d ∧ 500 ≤ d' ∧
    strobeTrace dl a c = [.w a c, .w a (assertEnable c), .t d, .w a (deassertEnable c), .t d']) ∧
  (∀ s : State, s.ConfigLegal → (s.sq = .s2 ∨ s.sq = .s7 ∨ s.sq = .s4 ∨ s.sq = .s9) →
    ∃ d, 500 ≤ d ∧ s.micro = some (.delay d)) ∧
  Config.defaultDelays.pulse = 500 ∧ Config.defaultDelays.settle = 500 ∧
  ∀ dl : Delays, 500 ≤ dl.pulse → 500 ≤ dl.settle → dl.wf = true

/-- 40_send.md R75: with the default delays, or longer ones, a byte transfer takes at least 2 ms. -/
def Obligations.ByteTransferTakesAtLeastTwoMilliseconds : Prop :=
  Config.defaultDelays.wf = true ∧
  ∀ (dl : Delays) (a : DevAddr) (m : Mode) (b : Byte) (bl : Bool), dl.wf = true → 2000 ≤ totalDelay (sendTrace dl a m b bl)

/-! ### The backlight operations -/

/-- 41_backlight.md R80, with its example. -/
def Obligations.BloffClearsTheBacklightBit : Prop :=
  encode .bloff = 0x200#10 ∧
  (∀ s : State, s.sq = .idle → exec .bloff s = .next { s with bl := false, answers := s.answers ++ [.done] }) ∧
  (∀ s t : State, s.sq = .idle → s.bl = true → exec .bloff s = .next t → t.BusOk 6 →
    ∃ u, exec (.cmd 0x01#8) t = .next u ∧
      writesTo s.addr (u.trace.drop s.trace.length) = [0x00#8, 0x04#8, 0x00#8, 0x10#8, 0x14#8, 0x10#8])

/-- 41_backlight.md R81, with its example. -/
def Obligations.BlonSetsTheBacklightBit : Prop :=
  encode .blon = 0x201#10 ∧
  (∀ s : State, s.sq = .idle → exec .blon s = .next { s with bl := true, answers := s.answers ++ [.done] }) ∧
  (∀ s t : State, s.sq = .idle → s.bl = false → exec .blon s = .next t → t.BusOk 6 →
    ∃ u, exec (.cmd 0x01#8) t = .next u ∧
      writesTo s.addr (u.trace.drop s.trace.length) = [0x08#8, 0x0C#8, 0x08#8, 0x18#8, 0x1C#8, 0x18#8])

/-- 41_backlight.md R82, with its corner case. -/
def Obligations.BltglInvertsTheBacklightBit : Prop :=
  encode .bltgl = 0x202#10 ∧
  (∀ s : State, s.sq = .idle → exec .bltgl s = .next { s with bl := !s.bl, answers := s.answers ++ [.done] }) ∧
  (∀ s t : State, s.sq = .idle → exec .bltgl s = .next t →
    ∃ u, exec .bltgl t = .next u ∧ u.bl = s.bl ∧ u.trace = s.trace)

/-- 41_backlight.md R83: what the three have in common; the new bit reaches the adapter with the first successful write
of the next byte transfer, and only byte transfers change the adapter's register. -/
def Obligations.BacklightTakesEffectOnTheNextTransfer : Prop :=
  (∀ i, (i = .bloff ∨ i = .blon ∨ i = .bltgl) → ∀ s : State, s.sq = .idle →
    ∃ t, exec i s = .next t ∧ t.sq = .idle ∧ t.busy = false ∧ t.answers = s.answers ++ [.done] ∧
      t.trace = s.trace ∧ t.mem = s.mem ∧ t.tf = s.tf ∧
      (∀ f, exec i { s with tf := f } = .next { t with tf := f }) ∧
      ∀ m b, t.busAnswer = .ok → ∃ u v rest, exec (transferOp m b) t = .next u ∧
        u.trace = t.trace ++ .w t.addr v :: rest ∧ backlightField v = t.bl) ∧
  (∀ s t : State, step s = .next t → t.mem ≠ s.mem →
    s.sq ≠ .idle ∨ ∃ m b rest, s.hostScript = .request (encode (transferOp m b)) :: rest)

/-- 41_backlight.md R84: every written value of a transfer, failed ones too, carries the `BL` the transfer started with;
also while a transfer in progress goes on. -/
def Obligations.EveryControlByteCarriesTheBacklightBit : Prop :=
  (∀ (m : Mode) (b : Byte) (s t : State), s.sq = .idle → exec (transferOp m b) s = .next t →
    (∃ new, t.trace = s.trace ++ new ∧ ∀ e, e ∈ new → ∀ v, e.value = some v → backlightField v = s.bl) ∧
    (t.sq ≠ .idle → t.opl = s.bl)) ∧
  (∀ s t : State, s.sq ≠ .idle → step s = .next t →
    (∃ new, t.trace = s.trace ++ new ∧ ∀ e, e ∈ new → ∀ v, e.value = some v → backlightField v = s.opl) ∧
    (t.sq ≠ .idle → t.opl = s.opl))

/-! ### Exceptions -/

/-- 60_exceptions.md R102: what a `TransportError` does, exactly; nothing clears `TF`, and with `TF = 1` operations run as
they do with `TF = 0`. -/
def Obligations.TransportErrorEntry : Prop :=
  (∀ (s : State) (v : Byte), s.micro = some (.write v) → s.busAnswer = .err →
    ∃ t, step s = .next t ∧ t.trace = s.trace ++ [.wf s.addr v] ∧ t.tf = true ∧ t.sq = .idle ∧ t.busy = false ∧
      t.answers = s.answers ++ [.fault .transportError s.sq none] ∧
      t.addr = s.addr ∧ t.width = s.width ∧ t.maxLines = s.maxLines ∧ t.bl = s.bl ∧ t.hostScript = s.hostScript) ∧
  (∀ s t : State, step s = .next t → s.tf = true → t.tf = true) ∧
  (∀ (i : Instr) (s t : State), exec i { s with tf := false } = .next t →
    exec i { s with tf := true } = .next { t with tf := true })

/-- 30_encoding.md R56 and 60_exceptions.md R105: exactly the words 0x203 to 0x2FF and 0x300 to 0x3FF are reserved, and
presenting one has no effect but the answer. -/
def Obligations.ReservedRequestsAreRefusedWithoutEffect : Prop :=
  (∀ rq : Request, (∃ why, decode rq = .reserved why) ↔
    (0x203 ≤ rq.toNat ∧ rq.toNat ≤ 0x2FF) ∨ (0x300 ≤ rq.toNat ∧ rq.toNat ≤ 0x3FF)) ∧
  (∀ (s : State) (rq : Request) (why : Reserved) (rest : List HostAction), s.sq = .idle →
    s.hostScript = .request rq :: rest → decode rq = .reserved why →
    step s = .next { s with
      hostScript := rest
      answers := s.answers ++ [.fault .illegalRequest .idle (some rq)] })

/-! ### Registers, flags, latches and the sequencer -/

/-- 10_state.md R15: nothing writes the configuration registers. -/
def Obligations.ConfigurationRegistersNeverChange : Prop :=
  ∀ s t : State, step s = .next t → t.addr = s.addr ∧ t.width = s.width ∧ t.maxLines = s.maxLines

/-- 10_state.md R19: `BUSY` is a function of `SQ`; `TF` is set exactly by a failing write, cleared by nothing, and no
operation reads it; both are 0 at reset. -/
def Obligations.StatusFlags : Prop :=
  (∀ s : State, s.busy = true ↔ s.sq ≠ .idle) ∧
  (∀ (s : State) (v : Byte), s.micro = some (.write v) → s.busAnswer = .err → ∃ t, step s = .next t ∧ t.tf = true) ∧
  (∀ s t : State, step s = .next t → s.tf = true → t.tf = true) ∧
  (∀ s t : State, step s = .next t → s.tf = false → t.tf = true → ∃ v, t.trace.getLast? = some (.wf s.addr v)) ∧
  (∀ (s t : State) (f : Bool), step s = .next t → ∃ f', step { s with tf := f } = .next { t with tf := f' }) ∧
  State.reset.busy = false ∧ State.reset.tf = false

/-- 10_state.md R17: the table of the ten events, and how `SQ` advances. The model's own choices: an operation presented while
`SQ` is not `Idle` leaves the state as it is (log entry 16, DEDUCED), and a hung write steps to the same state (log entry 6,
DESIGN CHOICE). -/
def Obligations.SequencerFollowsItsTable : Prop :=
  (∀ s : State,
    (s.sq = .s0 → s.micro = some (.write (composeHi s.opm s.opb s.opl))) ∧
    (s.sq = .s1 → s.micro = some (.write (composeHi s.opm s.opb s.opl ||| 0x04#8))) ∧
    (s.sq = .s2 → s.micro = some (.delay s.delays.pulse)) ∧
    (s.sq = .s3 → s.micro = some (.write (composeHi s.opm s.opb s.opl &&& ~~~0x04#8))) ∧
    (s.sq = .s4 → s.micro = some (.delay s.delays.settle)) ∧
    (s.sq = .s5 → s.micro = some (.write (composeLo s.opm s.opb s.opl))) ∧
    (s.sq = .s6 → s.micro = some (.write (composeLo s.opm s.opb s.opl ||| 0x04#8))) ∧
    (s.sq = .s7 → s.micro = some (.delay s.delays.pulse)) ∧
    (s.sq = .s8 → s.micro = some (.write (composeLo s.opm s.opb s.opl &&& ~~~0x04#8))) ∧
    (s.sq = .s9 → s.micro = some (.delay s.delays.settle))) ∧
  [Sq.s0, .s1, .s2, .s3, .s4, .s5, .s6, .s7, .s8, .s9].map Sq.succ =
    [.s1, .s2, .s3, .s4, .s5, .s6, .s7, .s8, .s9, .idle] ∧
  (∀ (s : State) (v : Byte), s.micro = some (.write v) → s.busAnswer = .ok →
    ∃ t, step s = .next t ∧ t.trace = s.trace ++ [.w s.addr v] ∧ t.sq = s.sq.succ) ∧
  (∀ (s : State) (d : Nat), s.micro = some (.delay d) →
    ∃ t, step s = .next t ∧ t.trace = s.trace ++ [.t d] ∧ t.sq = s.sq.succ) ∧
  (∀ (s : State) (v : Byte), s.micro = some (.write v) → s.busAnswer = .err → ∃ t, step s = .next t ∧ t.sq = .idle) ∧
  (∀ (s : State) (v : Byte), s.micro = some (.write v) → s.busAnswer = .never → step s = .next s) ∧
  (∀ s : State, s.sq ≠ .idle → ∀ i, exec i s = .next s) ∧
  (∀ i, (i = .bloff ∨ i = .blon ∨ i = .bltgl) → ∀ s t : State, exec i s = .next t → t.sq = s.sq) ∧
  State.reset.sq = .idle

/-- 10_state.md R18: the latches are written when a transfer is accepted and held while it runs, `BL` cannot change
meanwhile, and at `Idle` nothing reads them. -/
def Obligations.LatchesHoldTheOperandsOfTheTransfer : Prop :=
  (∀ (m : Mode) (b : Byte) (s t : State), s.sq = .idle → exec (transferOp m b) s = .next t → t.sq ≠ .idle →
    t.opm = m ∧ t.opb = b ∧ t.opl = s.bl) ∧
  (∀ s t : State, s.sq ≠ .idle → step s = .next t → t.bl = s.bl ∧
    (t.sq ≠ .idle → t.opm = s.opm ∧ t.opb = s.opb ∧ t.opl = s.opl)) ∧
  (∀ (s : State) (v : Byte), s.micro = some (.write v) →
    v &&& ~~~0x04#8 = ctrl s.opm (highNibble s.opb) s.opl ∨ v &&& ~~~0x04#8 = ctrl s.opm (lowNibble s.opb) s.opl) ∧
  (∀ (m m' : Mode) (b b' : Byte) (l : Bool) (s : State), s.sq = .idle →
    exec (transferOp m b) { s with opm := m', opb := b', opl := l } = exec (transferOp m b) s) ∧
  (∀ (i : Instr) (m' : Mode) (b' : Byte) (l : Bool) (s t : State), s.sq = .idle →
    (i = .bloff ∨ i = .blon ∨ i = .bltgl) → exec i s = .next t →
    exec i { s with opm := m', opb := b', opl := l } = .next { t with opm := m', opb := b', opl := l })

/-- 10_state.md R23: one operation at a time, accepted only at `Idle`, and answered exactly once, when it ends, with `Done`
or `Fault(cause, step)`; never, if a write does not return. The model's own: an operation presented while `BUSY = 1` leaves
the state as it is (log entry 16, DEDUCED), and a hung write still answers a next state, the same one (log entry 6, DESIGN
CHOICE). -/
def Obligations.HostPortAnswersEachOperationOnce : Prop :=
  (∀ (i : Instr) (s : State), s.sq ≠ .idle → exec i s = .next s) ∧
  (∀ s t : State, s.sq ≠ .idle → step s = .next t → t.hostScript = s.hostScript) ∧
  (∀ (i : Instr) (s t : State), s.sq = .idle → exec i s = .next t →
    (t.sq = .idle ∧ ∃ a, t.answers = s.answers ++ [a] ∧
      (a = .done ∨ ∃ k, a = .fault .transportError k none)) ∨
    (t.sq ≠ .idle ∧ t.answers = s.answers)) ∧
  (∀ s t : State, s.sq ≠ .idle → step s = .next t →
    (t.sq = .idle ∧ ∃ a, t.answers = s.answers ++ [a] ∧
      (a = .done ∨ a = .fault .transportError s.sq none)) ∨
    (t.sq ≠ .idle ∧ t.answers = s.answers)) ∧
  (∀ (s : State) (v : Byte), s.micro = some (.write v) → s.busAnswer = .never →
    ∀ n, ∃ t, runSteps n s = .next t ∧ t.answers = s.answers)

/-- 20_memory.md R45: a step only appends to the trace, and a failed write is the last event it appends. -/
def Obligations.TraceOnlyGrowsAndFailureIsLast : Prop :=
  ∀ s t : State, step s = .next t →
    ∃ new, t.trace = s.trace ++ new ∧ ∀ e, e ∈ new.dropLast → e.failed = false

/-! ### What is not read -/

/-- 40_send.md R70, 10_state.md R12 and R13: no step reads `WIDTH` or `MAX_LINES`. -/
def Obligations.WidthAndMaxLinesAreNeverRead : Prop :=
  ∀ (s t : State) (w : Nat) (l : BitVec 3), step s = .next t →
    step { s with width := w, maxLines := l } = .next { t with width := w, maxLines := l }

/-- 20_memory.md R32: the block never reads; what the adapters hold changes nothing else in any step. -/
def Obligations.BlockNeverReadsTheBus : Prop :=
  ∀ (s t : State) (m : Memory), step s = .next t → ∃ m', step { s with mem := m } = .next { t with mem := m' }

/-! ### The control byte and the nibbles -/

/-- 30_encoding.md R53: the nibble assembly and its laws. -/
def Obligations.NibbleAssembly : Prop :=
  ∀ b : Byte,
    (hi b).toNat = b.toNat / 16 * 16 ∧ (lo b).toNat = b.toNat % 16 * 16 ∧
    hi b = b &&& 0xF0#8 ∧ (lo b).toNat = (b.toNat <<< 4) &&& 0xF0 ∧
    hi b ||| (lo b >>> 4) = b ∧
    (hi b).extractLsb' 0 4 = 0x0#4 ∧ (lo b).extractLsb' 0 4 = 0x0#4 ∧
    (hi b).extractLsb' 4 4 = b.extractLsb' 4 4 ∧ (lo b).extractLsb' 4 4 = b.extractLsb' 0 4

/-- 30_encoding.md R51 and R52: the fields of the control byte, `ctrl` as a sum, and the three bytes of a nibble
transfer. -/
def Obligations.ControlByteFormat : Prop :=
  rsMask = 0x01#8 ∧ blMask = 0x08#8 ∧ enMask = 0x04#8 ∧ dataMask = 0xF0#8 ∧
  modeByte .command = 0x00#8 ∧ modeByte .data = 0x01#8 ∧
  bitByte true * blMask = 0x08#8 ∧ bitByte false * blMask = 0x00#8 ∧
  ∀ (m : Mode) (n : Nibble) (bl : Bool),
    (ctrl m n bl).toNat = (modeByte m).toNat * 0x01 + n.toNat * 0x10 + (bitByte bl).toNat * 0x08 ∧
    dataField (ctrl m n bl) = n ∧ backlightField (ctrl m n bl) = bl ∧ enableField (ctrl m n bl) = false ∧
    (ctrl m n bl).getLsbD 1 = false ∧ modeField (ctrl m n bl) = m ∧
    assertEnable (ctrl m n bl) = ctrl m n bl ||| 0x04#8 ∧ enableField (assertEnable (ctrl m n bl)) = true ∧
    deassertEnable (ctrl m n bl) = ctrl m n bl

/-- 30_encoding.md R58 and R59 (derived there): every value a step puts on the bus is one of the two classes, and the
values a byte transfer can write are exactly the 128 with bit 1 clear. -/
def Obligations.EmittedControlBytes : Prop :=
  (∀ s t : State, step s = .next t → ∃ new, t.trace = s.trace ++ new ∧
    ∀ e, e ∈ new → ∀ v, e.value = some v → v &&& 0x06#8 = 0x00#8 ∨ v &&& 0x06#8 = 0x04#8) ∧
  (∀ v : Byte, v.getLsbD 1 = false ↔ ∃ m b bl k, k < 6 ∧ writeValue m b bl k = v)

/-! ### The registers behind the bus -/

/-- 20_memory.md R34 and 10_state.md R22: a successful write makes its value the adapter's register; after a failed one the
register has no known value (93_implementation_defined.md U3; the model's form of it is log entry 4); every other
register stays. -/
def Obligations.AdapterRegisterFollowsTheWrites : Prop :=
  (∀ (s : State) (v : Byte), s.micro = some (.write v) → s.busAnswer = .ok →
    ∃ t, step s = .next t ∧ Memory.read t.mem (busAddress s.addr).toNat = some v ∧
      ∀ a, a ≠ (busAddress s.addr).toNat → Memory.read t.mem a = Memory.read s.mem a) ∧
  (∀ (s : State) (v : Byte), Memory.wf s.mem = true → s.micro = some (.write v) → s.busAnswer = .err →
    ∃ t, step s = .next t ∧ Memory.read t.mem (busAddress s.addr).toNat = none ∧
      ∀ a, a ≠ (busAddress s.addr).toNat → Memory.read t.mem a = Memory.read s.mem a)

/-! ### Decoding and stepping -/

/-- Every operation's request word decodes back to it, with every operand. -/
def Obligations.DecodeOfEncode : Prop := ∀ i : Instr, i.wf = true → decode (encode i) = .instr i

/-- Every request word that decodes to an operation is the word of that operation. -/
def Obligations.EncodeOfDecode : Prop := ∀ (rq : Request) (i : Instr), decode rq = .instr i → encode i = rq

/-- The words of 95_test_vectors.md section 2.5. -/
def Obligations.TabulatedRequestWordsDecode : Prop :=
  decode 0x000#10 = .instr (.cmd 0x00#8) ∧ decode 0x028#10 = .instr (.cmd 0x28#8) ∧
  decode 0x0FF#10 = .instr (.cmd 0xFF#8) ∧ decode 0x100#10 = .instr (.dat 0x00#8) ∧
  decode 0x141#10 = .instr (.dat 0x41#8) ∧ decode 0x1FF#10 = .instr (.dat 0xFF#8) ∧
  decode 0x200#10 = .instr .bloff ∧ decode 0x201#10 = .instr .blon ∧ decode 0x202#10 = .instr .bltgl

/-- A step at `Idle` runs the operation the presented word decodes to, the host having moved past it; while busy the
sequencer takes one step. The model's own: with nothing presented the idle block steps to the same state (log entries 5 and
6, DESIGN CHOICE), and a step from `Idle` is a whole operation (log entry 15, DESIGN CHOICE). -/
def Obligations.StepRunsTheDecodedOperation : Prop :=
  (∀ (s : State) (rq : Request) (rest : List HostAction) (i : Instr), s.sq = .idle →
    s.hostScript = .request rq :: rest → decode rq = .instr i → step s = exec i { s with hostScript := rest }) ∧
  (∀ s : State, s.sq = .idle → s.hostScript = [] → step s = .next s) ∧
  (∀ s : State, s.sq ≠ .idle → step s = .next (seqStep s))

/-- A word placed by `withFetchWord` is what the next step runs (log entry 5). -/
def Obligations.FetchedWordIsRunNext : Prop :=
  ∀ (i : Instr) (s : State) (nbits : Nat),
    step (s.withFetchWord nbits (encode i).toNat) = exec i { s with sq := .idle }

/-- No state stops the machine: a step always answers a next state. That there is one also at a hung write, where
60_exceptions.md R109 says that no step is enabled, and for an idle block with nothing presented is the model's own (log
entry 6, DESIGN CHOICE); which state it is, SequencerFollowsItsTable and StepRunsTheDecodedOperation say. -/
def Obligations.EveryStepAnswersANextState : Prop := ∀ s : State, ∃ t, step s = .next t

/-- 42_host_sequences.md R96: `WAIT d` is one `T(d)` and no operation. -/
def Obligations.WaitAppendsOneDelay : Prop :=
  ∀ (s : State) (d : Nat) (rest : List HostAction), s.sq = .idle → s.hostScript = .wait d :: rest →
    step s = .next { s with hostScript := rest, trace := s.trace ++ [.t d] }

/-! ### The host's sequences -/

/-- 42_host_sequences.md R90: the six commands in order and the delay, and (derived there) what the sequence writes and
latches, under either backlight bit. -/
def Obligations.InitSequence : Prop :=
  initSeq = [.request 0x033#10, .request 0x032#10, .request 0x006#10, .request 0x00C#10, .request 0x028#10,
    .request 0x001#10, .wait Config.tInit] ∧ 500 ≤ Config.tInit ∧
  ∀ (dl : Delays) (a : DevAddr) (bl : Bool),
    countWrites (initTrace dl a bl) = 36 ∧ countDelays (initTrace dl a bl) = 25 ∧
    latched a (initTrace dl a bl) =
      [0x3#4, 0x3#4, 0x3#4, 0x2#4, 0x0#4, 0x6#4, 0x0#4, 0xC#4, 0x2#4, 0x8#4, 0x0#4, 0x1#4].map (fun n => (.command, n)) ∧
    ∀ e, e ∈ initTrace dl a bl → ∀ v, e.value = some v → backlightField v = bl

/-- 42_host_sequences.md R90, its last sentence: with every write succeeding `INIT` leaves its whole trace; if one fails,
it stops with that command's fault and nothing more is sent (log entry 18). -/
def Obligations.InitStopsAtTheFirstFault : Prop :=
  (∀ s : State, s.sq = .idle → s.BusOk 36 →
    ∃ t, runUntilFault initSeq s = .next t ∧ t.trace = s.trace ++ initTrace s.delays s.addr s.bl ∧ t.sq = .idle) ∧
  (∀ (s : State) (k : Nat), s.sq = .idle → k < 36 → s.BusOk k → s.answerAhead k = .err →
    ∃ t new v, runUntilFault initSeq s = .next t ∧ t.trace = s.trace ++ new ++ [.wf s.addr v] ∧
      countWrites new = k ∧
      t.answers = s.answers ++ List.replicate (k / 6) .done ++ [.fault .transportError (writeStep (k % 6)) none])

/-- 42_host_sequences.md R91: the four line addresses, and line 1's for every other index. -/
def Obligations.LineAddresses : Prop :=
  lineSeq 1 = [.request (encode (.cmd 0x80#8))] ∧ lineSeq 2 = [.request (encode (.cmd 0xC0#8))] ∧
  lineSeq 3 = [.request (encode (.cmd 0x94#8))] ∧ lineSeq 4 = [.request (encode (.cmd 0xD4#8))] ∧
  ∀ n : Int, (n < 1 ∨ 4 < n) → lineSeq n = [.request (encode (.cmd 0x80#8))]

/-- 42_host_sequences.md R93: the address command, then exactly as many data bytes as the encoder's
register `WIDTH` says, the text's first ones in order and
then spaces, each as `PUTC` sends it; `6 * (1 + WIDTH)` writes and `4 * (1 + WIDTH)` delays. The premise: every character
of the text has a code (93_implementation_defined.md U7). -/
def Obligations.WrlineSendsExactlyWidthCharacters : Prop :=
  ∀ (s : State) (text : List Char) (n : Int), (∀ c, c ∈ text → putcSeq c ≠ none) →
    ∃ acts, s.expandLine (.wrline text n) = some (lineSeq n ++ acts) ∧ acts.length = s.width ∧
      (∀ i, i < s.width → ∃ a, acts[i]? = some a ∧ putcSeq ((text[i]?).getD ' ') = some [a]) ∧
      (∀ (dl : Delays) (a : DevAddr) (bl : Bool),
        countWrites (scriptTrace dl a bl (lineSeq n ++ acts)) = 6 * (1 + s.width) ∧
        countDelays (scriptTrace dl a bl (lineSeq n ++ acts)) = 4 * (1 + s.width))

/-- 42_host_sequences.md R92 and R94; characters 128 to 255 are log entry 8 and not stated. -/
def Obligations.PutcSendsTheCharactersCode : Prop :=
  putcSeq 'A' = some [.request (encode (.dat 0x41#8))] ∧ putcSeq ' ' = some [.request (encode (.dat 0x20#8))] ∧
  putcSeq '0' = some [.request (encode (.dat 0x30#8))] ∧ putcSeq 'a' = some [.request (encode (.dat 0x61#8))] ∧
  ∀ c : Char, (c.toNat < 128 → putcSeq c = some [.request (encode (.dat (BitVec.ofNat 8 c.toNat)))]) ∧
    (255 < c.toNat → putcSeq c = none)

/-- 30_encoding.md R61: every operation written in the assembler syntax reads back as itself (log entry 14). -/
def Obligations.AssemblerReadsWhatIsShown : Prop := ∀ i : Instr, assembleLine (showLine i) = .op i

/-- 20_memory.md R40, 40_send.md R78, 70_reset_and_hazards.md R134: for every script of the host, with every write
succeeding, running it appends exactly the traces of its operations in order with nothing in between, answers each,
and ends idle with the configuration and `TF` as they were. Every entry of the
script is done, the host's own delays too. -/
def Obligations.HostScriptRunsToTheConcatenatedTrace : Prop :=
  ∀ s : State, s.sq = .idle → s.BusOk (scriptWrites s.hostScript) →
    ∃ t, runSteps s.hostScript.length s = .next t ∧ t.Ended ∧ t.hostScript = [] ∧
      t.trace = s.trace ++ scriptTrace s.delays s.addr s.bl s.hostScript ∧
      t.answers = s.answers ++ scriptAnswers s.hostScript ∧
      t.bl = scriptBl s.bl s.hostScript ∧ t.tf = s.tf ∧
      t.addr = s.addr ∧ t.width = s.width ∧ t.maxLines = s.maxLines ∧ t.delays = s.delays

/-- 00_scope.md R6: `T_PULSE` and `T_SETTLE` are parameters of a build. That they are fixed when the block is constructed, and
that a host program's lines are expanded with the `WIDTH` given there, whatever the delays, is the model's form of it (log
entry 13, DESIGN CHOICE; 42_host_sequences.md R93). -/
def Obligations.BuildIsFixedAtConstruction : Prop :=
  (∀ (d : Delays) (p : Params) (s : State), construct d p = .next s → s.delays = d ∧
    (d.wf = true → s.ConfigLegal) ∧ ∀ ps, s.expandProgram ps = expandAll p.width.toNat ps) ∧
  (∀ s t : State, step s = .next t → t.delays = s.delays ∧ ∀ ps, t.expandProgram ps = s.expandProgram ps) ∧
  State.reset.delays = Config.defaultDelays
end

