-- ==== Sys2Proof/Laws/State.lean ====
section
/-! SUPPORT. Every field after every shared operation, once: true by rfl, for simp. -/

/-- A build's two delays, as the bounds they are (70_reset_and_hazards.md R125). -/
theorem Sys2Proof.Delays.wf_iff (d : Sys2Proof.Delays) : d.wf = true ↔ 500 ≤ d.pulse ∧ 500 ≤ d.settle := decide_eq_true_iff

namespace Sys2Proof.Machine

/-! ### emit -/

@[simp] theorem emit_addr (e : Event) (s : State) : (emit e s).addr = s.addr := rfl
@[simp] theorem emit_width (e : Event) (s : State) : (emit e s).width = s.width := rfl
@[simp] theorem emit_maxLines (e : Event) (s : State) : (emit e s).maxLines = s.maxLines := rfl
@[simp] theorem emit_delays (e : Event) (s : State) : (emit e s).delays = s.delays := rfl
@[simp] theorem emit_bl (e : Event) (s : State) : (emit e s).bl = s.bl := rfl
@[simp] theorem emit_sq (e : Event) (s : State) : (emit e s).sq = s.sq := rfl
@[simp] theorem emit_opm (e : Event) (s : State) : (emit e s).opm = s.opm := rfl
@[simp] theorem emit_opb (e : Event) (s : State) : (emit e s).opb = s.opb := rfl
@[simp] theorem emit_opl (e : Event) (s : State) : (emit e s).opl = s.opl := rfl
@[simp] theorem emit_tf (e : Event) (s : State) : (emit e s).tf = s.tf := rfl
@[simp] theorem emit_mem (e : Event) (s : State) : (emit e s).mem = s.mem := rfl
@[simp] theorem emit_trace (e : Event) (s : State) : (emit e s).trace = s.trace ++ [e] := rfl
@[simp] theorem emit_answers (e : Event) (s : State) : (emit e s).answers = s.answers := rfl
@[simp] theorem emit_hostScript (e : Event) (s : State) : (emit e s).hostScript = s.hostScript := rfl
@[simp] theorem emit_busScript (e : Event) (s : State) : (emit e s).busScript = s.busScript := rfl
@[simp] theorem emit_busDrawn (e : Event) (s : State) : (emit e s).busDrawn = s.busDrawn := rfl
@[simp] theorem emit_latchDrawn (e : Event) (s : State) : (emit e s).latchDrawn = s.latchDrawn := rfl

/-! ### reply -/

@[simp] theorem reply_addr (a : Answer) (s : State) : (reply a s).addr = s.addr := rfl
@[simp] theorem reply_width (a : Answer) (s : State) : (reply a s).width = s.width := rfl
@[simp] theorem reply_maxLines (a : Answer) (s : State) : (reply a s).maxLines = s.maxLines := rfl
@[simp] theorem reply_delays (a : Answer) (s : State) : (reply a s).delays = s.delays := rfl
@[simp] theorem reply_bl (a : Answer) (s : State) : (reply a s).bl = s.bl := rfl
@[simp] theorem reply_sq (a : Answer) (s : State) : (reply a s).sq = s.sq := rfl
@[simp] theorem reply_opm (a : Answer) (s : State) : (reply a s).opm = s.opm := rfl
@[simp] theorem reply_opb (a : Answer) (s : State) : (reply a s).opb = s.opb := rfl
@[simp] theorem reply_opl (a : Answer) (s : State) : (reply a s).opl = s.opl := rfl
@[simp] theorem reply_tf (a : Answer) (s : State) : (reply a s).tf = s.tf := rfl
@[simp] theorem reply_mem (a : Answer) (s : State) : (reply a s).mem = s.mem := rfl
@[simp] theorem reply_trace (a : Answer) (s : State) : (reply a s).trace = s.trace := rfl
@[simp] theorem reply_answers (a : Answer) (s : State) : (reply a s).answers = s.answers ++ [a] := rfl
@[simp] theorem reply_hostScript (a : Answer) (s : State) : (reply a s).hostScript = s.hostScript := rfl
@[simp] theorem reply_busScript (a : Answer) (s : State) : (reply a s).busScript = s.busScript := rfl
@[simp] theorem reply_busDrawn (a : Answer) (s : State) : (reply a s).busDrawn = s.busDrawn := rfl
@[simp] theorem reply_latchDrawn (a : Answer) (s : State) : (reply a s).latchDrawn = s.latchDrawn := rfl

/-! ### goIdle -/

@[simp] theorem goIdle_addr (s : State) : (goIdle s).addr = s.addr := rfl
@[simp] theorem goIdle_width (s : State) : (goIdle s).width = s.width := rfl
@[simp] theorem goIdle_maxLines (s : State) : (goIdle s).maxLines = s.maxLines := rfl
@[simp] theorem goIdle_delays (s : State) : (goIdle s).delays = s.delays := rfl
@[simp] theorem goIdle_bl (s : State) : (goIdle s).bl = s.bl := rfl
@[simp] theorem goIdle_sq (s : State) : (goIdle s).sq = .idle := rfl
@[simp] theorem goIdle_opm (s : State) : (goIdle s).opm = Config.freeOpm s.latchDrawn := rfl
@[simp] theorem goIdle_opb (s : State) : (goIdle s).opb = Config.freeOpb s.latchDrawn := rfl
@[simp] theorem goIdle_opl (s : State) : (goIdle s).opl = Config.freeOpl s.latchDrawn := rfl
@[simp] theorem goIdle_tf (s : State) : (goIdle s).tf = s.tf := rfl
@[simp] theorem goIdle_mem (s : State) : (goIdle s).mem = s.mem := rfl
@[simp] theorem goIdle_trace (s : State) : (goIdle s).trace = s.trace := rfl
@[simp] theorem goIdle_answers (s : State) : (goIdle s).answers = s.answers := rfl
@[simp] theorem goIdle_hostScript (s : State) : (goIdle s).hostScript = s.hostScript := rfl
@[simp] theorem goIdle_busScript (s : State) : (goIdle s).busScript = s.busScript := rfl
@[simp] theorem goIdle_busDrawn (s : State) : (goIdle s).busDrawn = s.busDrawn := rfl
@[simp] theorem goIdle_latchDrawn (s : State) : (goIdle s).latchDrawn = s.latchDrawn + 1 := rfl

/-! ### setTransportFault -/

@[simp] theorem setTransportFault_addr (s : State) : (setTransportFault s).addr = s.addr := rfl
@[simp] theorem setTransportFault_width (s : State) : (setTransportFault s).width = s.width := rfl
@[simp] theorem setTransportFault_maxLines (s : State) : (setTransportFault s).maxLines = s.maxLines := rfl
@[simp] theorem setTransportFault_delays (s : State) : (setTransportFault s).delays = s.delays := rfl
@[simp] theorem setTransportFault_bl (s : State) : (setTransportFault s).bl = s.bl := rfl
@[simp] theorem setTransportFault_sq (s : State) : (setTransportFault s).sq = s.sq := rfl
@[simp] theorem setTransportFault_opm (s : State) : (setTransportFault s).opm = s.opm := rfl
@[simp] theorem setTransportFault_opb (s : State) : (setTransportFault s).opb = s.opb := rfl
@[simp] theorem setTransportFault_opl (s : State) : (setTransportFault s).opl = s.opl := rfl
@[simp] theorem setTransportFault_tf (s : State) : (setTransportFault s).tf = true := rfl
@[simp] theorem setTransportFault_mem (s : State) : (setTransportFault s).mem = s.mem := rfl
@[simp] theorem setTransportFault_trace (s : State) : (setTransportFault s).trace = s.trace := rfl
@[simp] theorem setTransportFault_answers (s : State) : (setTransportFault s).answers = s.answers := rfl
@[simp] theorem setTransportFault_hostScript (s : State) : (setTransportFault s).hostScript = s.hostScript := rfl
@[simp] theorem setTransportFault_busScript (s : State) : (setTransportFault s).busScript = s.busScript := rfl
@[simp] theorem setTransportFault_busDrawn (s : State) : (setTransportFault s).busDrawn = s.busDrawn := rfl
@[simp] theorem setTransportFault_latchDrawn (s : State) : (setTransportFault s).latchDrawn = s.latchDrawn := rfl

/-! ### acceptTransfer -/

@[simp] theorem acceptTransfer_addr (m : Mode) (b : Byte) (s : State) : (acceptTransfer m b s).addr = s.addr := rfl
@[simp] theorem acceptTransfer_width (m : Mode) (b : Byte) (s : State) : (acceptTransfer m b s).width = s.width := rfl
@[simp] theorem acceptTransfer_maxLines (m : Mode) (b : Byte) (s : State) : (acceptTransfer m b s).maxLines = s.maxLines := rfl
@[simp] theorem acceptTransfer_delays (m : Mode) (b : Byte) (s : State) : (acceptTransfer m b s).delays = s.delays := rfl
@[simp] theorem acceptTransfer_bl (m : Mode) (b : Byte) (s : State) : (acceptTransfer m b s).bl = s.bl := rfl
@[simp] theorem acceptTransfer_sq (m : Mode) (b : Byte) (s : State) : (acceptTransfer m b s).sq = .s0 := rfl
@[simp] theorem acceptTransfer_opm (m : Mode) (b : Byte) (s : State) : (acceptTransfer m b s).opm = m := rfl
@[simp] theorem acceptTransfer_opb (m : Mode) (b : Byte) (s : State) : (acceptTransfer m b s).opb = b := rfl
@[simp] theorem acceptTransfer_opl (m : Mode) (b : Byte) (s : State) : (acceptTransfer m b s).opl = s.bl := rfl
@[simp] theorem acceptTransfer_tf (m : Mode) (b : Byte) (s : State) : (acceptTransfer m b s).tf = s.tf := rfl
@[simp] theorem acceptTransfer_mem (m : Mode) (b : Byte) (s : State) : (acceptTransfer m b s).mem = s.mem := rfl
@[simp] theorem acceptTransfer_trace (m : Mode) (b : Byte) (s : State) : (acceptTransfer m b s).trace = s.trace := rfl
@[simp] theorem acceptTransfer_answers (m : Mode) (b : Byte) (s : State) : (acceptTransfer m b s).answers = s.answers := rfl
@[simp] theorem acceptTransfer_hostScript (m : Mode) (b : Byte) (s : State) : (acceptTransfer m b s).hostScript = s.hostScript := rfl
@[simp] theorem acceptTransfer_busScript (m : Mode) (b : Byte) (s : State) : (acceptTransfer m b s).busScript = s.busScript := rfl
@[simp] theorem acceptTransfer_busDrawn (m : Mode) (b : Byte) (s : State) : (acceptTransfer m b s).busDrawn = s.busDrawn := rfl
@[simp] theorem acceptTransfer_latchDrawn (m : Mode) (b : Byte) (s : State) : (acceptTransfer m b s).latchDrawn = s.latchDrawn := rfl

/-! ### setBacklight -/

@[simp] theorem setBacklight_addr (v : Bool) (s : State) : (setBacklight v s).addr = s.addr := rfl
@[simp] theorem setBacklight_width (v : Bool) (s : State) : (setBacklight v s).width = s.width := rfl
@[simp] theorem setBacklight_maxLines (v : Bool) (s : State) : (setBacklight v s).maxLines = s.maxLines := rfl
@[simp] theorem setBacklight_delays (v : Bool) (s : State) : (setBacklight v s).delays = s.delays := rfl
@[simp] theorem setBacklight_bl (v : Bool) (s : State) : (setBacklight v s).bl = v := rfl
@[simp] theorem setBacklight_sq (v : Bool) (s : State) : (setBacklight v s).sq = s.sq := rfl
@[simp] theorem setBacklight_opm (v : Bool) (s : State) : (setBacklight v s).opm = s.opm := rfl
@[simp] theorem setBacklight_opb (v : Bool) (s : State) : (setBacklight v s).opb = s.opb := rfl
@[simp] theorem setBacklight_opl (v : Bool) (s : State) : (setBacklight v s).opl = s.opl := rfl
@[simp] theorem setBacklight_tf (v : Bool) (s : State) : (setBacklight v s).tf = s.tf := rfl
@[simp] theorem setBacklight_mem (v : Bool) (s : State) : (setBacklight v s).mem = s.mem := rfl
@[simp] theorem setBacklight_trace (v : Bool) (s : State) : (setBacklight v s).trace = s.trace := rfl
@[simp] theorem setBacklight_answers (v : Bool) (s : State) : (setBacklight v s).answers = s.answers ++ [.done] := rfl
@[simp] theorem setBacklight_hostScript (v : Bool) (s : State) : (setBacklight v s).hostScript = s.hostScript := rfl
@[simp] theorem setBacklight_busScript (v : Bool) (s : State) : (setBacklight v s).busScript = s.busScript := rfl
@[simp] theorem setBacklight_busDrawn (v : Bool) (s : State) : (setBacklight v s).busDrawn = s.busDrawn := rfl
@[simp] theorem setBacklight_latchDrawn (v : Bool) (s : State) : (setBacklight v s).latchDrawn = s.latchDrawn := rfl

/-! ### popAction -/

@[simp] theorem popAction_addr (s : State) : (popAction s).addr = s.addr := rfl
@[simp] theorem popAction_width (s : State) : (popAction s).width = s.width := rfl
@[simp] theorem popAction_maxLines (s : State) : (popAction s).maxLines = s.maxLines := rfl
@[simp] theorem popAction_delays (s : State) : (popAction s).delays = s.delays := rfl
@[simp] theorem popAction_bl (s : State) : (popAction s).bl = s.bl := rfl
@[simp] theorem popAction_sq (s : State) : (popAction s).sq = s.sq := rfl
@[simp] theorem popAction_opm (s : State) : (popAction s).opm = s.opm := rfl
@[simp] theorem popAction_opb (s : State) : (popAction s).opb = s.opb := rfl
@[simp] theorem popAction_opl (s : State) : (popAction s).opl = s.opl := rfl
@[simp] theorem popAction_tf (s : State) : (popAction s).tf = s.tf := rfl
@[simp] theorem popAction_mem (s : State) : (popAction s).mem = s.mem := rfl
@[simp] theorem popAction_trace (s : State) : (popAction s).trace = s.trace := rfl
@[simp] theorem popAction_answers (s : State) : (popAction s).answers = s.answers := rfl
@[simp] theorem popAction_hostScript (s : State) : (popAction s).hostScript = s.hostScript.tail := rfl
@[simp] theorem popAction_busScript (s : State) : (popAction s).busScript = s.busScript := rfl
@[simp] theorem popAction_busDrawn (s : State) : (popAction s).busDrawn = s.busDrawn := rfl
@[simp] theorem popAction_latchDrawn (s : State) : (popAction s).latchDrawn = s.latchDrawn := rfl

/-! ### hostWait -/

@[simp] theorem hostWait_addr (d : Nat) (s : State) : (hostWait d s).addr = s.addr := rfl
@[simp] theorem hostWait_width (d : Nat) (s : State) : (hostWait d s).width = s.width := rfl
@[simp] theorem hostWait_maxLines (d : Nat) (s : State) : (hostWait d s).maxLines = s.maxLines := rfl
@[simp] theorem hostWait_delays (d : Nat) (s : State) : (hostWait d s).delays = s.delays := rfl
@[simp] theorem hostWait_bl (d : Nat) (s : State) : (hostWait d s).bl = s.bl := rfl
@[simp] theorem hostWait_sq (d : Nat) (s : State) : (hostWait d s).sq = s.sq := rfl
@[simp] theorem hostWait_opm (d : Nat) (s : State) : (hostWait d s).opm = s.opm := rfl
@[simp] theorem hostWait_opb (d : Nat) (s : State) : (hostWait d s).opb = s.opb := rfl
@[simp] theorem hostWait_opl (d : Nat) (s : State) : (hostWait d s).opl = s.opl := rfl
@[simp] theorem hostWait_tf (d : Nat) (s : State) : (hostWait d s).tf = s.tf := rfl
@[simp] theorem hostWait_mem (d : Nat) (s : State) : (hostWait d s).mem = s.mem := rfl
@[simp] theorem hostWait_trace (d : Nat) (s : State) : (hostWait d s).trace = s.trace ++ [.t d] := rfl
@[simp] theorem hostWait_answers (d : Nat) (s : State) : (hostWait d s).answers = s.answers := rfl
@[simp] theorem hostWait_hostScript (d : Nat) (s : State) : (hostWait d s).hostScript = s.hostScript := rfl
@[simp] theorem hostWait_busScript (d : Nat) (s : State) : (hostWait d s).busScript = s.busScript := rfl
@[simp] theorem hostWait_busDrawn (d : Nat) (s : State) : (hostWait d s).busDrawn = s.busDrawn := rfl
@[simp] theorem hostWait_latchDrawn (d : Nat) (s : State) : (hostWait d s).latchDrawn = s.latchDrawn := rfl

/-! ### completeWrite -/

@[simp] theorem completeWrite_addr (v : Byte) (s : State) : (completeWrite v s).addr = s.addr := rfl
@[simp] theorem completeWrite_width (v : Byte) (s : State) : (completeWrite v s).width = s.width := rfl
@[simp] theorem completeWrite_maxLines (v : Byte) (s : State) : (completeWrite v s).maxLines = s.maxLines := rfl
@[simp] theorem completeWrite_delays (v : Byte) (s : State) : (completeWrite v s).delays = s.delays := rfl
@[simp] theorem completeWrite_bl (v : Byte) (s : State) : (completeWrite v s).bl = s.bl := rfl
@[simp] theorem completeWrite_sq (v : Byte) (s : State) : (completeWrite v s).sq = s.sq := rfl
@[simp] theorem completeWrite_opm (v : Byte) (s : State) : (completeWrite v s).opm = s.opm := rfl
@[simp] theorem completeWrite_opb (v : Byte) (s : State) : (completeWrite v s).opb = s.opb := rfl
@[simp] theorem completeWrite_opl (v : Byte) (s : State) : (completeWrite v s).opl = s.opl := rfl
@[simp] theorem completeWrite_tf (v : Byte) (s : State) : (completeWrite v s).tf = s.tf := rfl
@[simp] theorem completeWrite_mem (v : Byte) (s : State) : (completeWrite v s).mem = Memory.write s.mem (busAddress s.addr).toNat v := rfl
@[simp] theorem completeWrite_trace (v : Byte) (s : State) : (completeWrite v s).trace = s.trace ++ [.w s.addr v] := rfl
@[simp] theorem completeWrite_answers (v : Byte) (s : State) : (completeWrite v s).answers = s.answers := rfl
@[simp] theorem completeWrite_hostScript (v : Byte) (s : State) : (completeWrite v s).hostScript = s.hostScript := rfl
@[simp] theorem completeWrite_busScript (v : Byte) (s : State) : (completeWrite v s).busScript = s.busScript := rfl
@[simp] theorem completeWrite_busDrawn (v : Byte) (s : State) : (completeWrite v s).busDrawn = s.busDrawn := rfl
@[simp] theorem completeWrite_latchDrawn (v : Byte) (s : State) : (completeWrite v s).latchDrawn = s.latchDrawn := rfl

/-! ### raiseTransportError -/

@[simp] theorem raiseTransportError_addr (v : Byte) (s : State) : (raiseTransportError v s).addr = s.addr := rfl
@[simp] theorem raiseTransportError_width (v : Byte) (s : State) : (raiseTransportError v s).width = s.width := rfl
@[simp] theorem raiseTransportError_maxLines (v : Byte) (s : State) : (raiseTransportError v s).maxLines = s.maxLines := rfl
@[simp] theorem raiseTransportError_delays (v : Byte) (s : State) : (raiseTransportError v s).delays = s.delays := rfl
@[simp] theorem raiseTransportError_bl (v : Byte) (s : State) : (raiseTransportError v s).bl = s.bl := rfl
@[simp] theorem raiseTransportError_sq (v : Byte) (s : State) : (raiseTransportError v s).sq = .idle := rfl
@[simp] theorem raiseTransportError_opm (v : Byte) (s : State) : (raiseTransportError v s).opm = Config.freeOpm s.latchDrawn := rfl
@[simp] theorem raiseTransportError_opb (v : Byte) (s : State) : (raiseTransportError v s).opb = Config.freeOpb s.latchDrawn := rfl
@[simp] theorem raiseTransportError_opl (v : Byte) (s : State) : (raiseTransportError v s).opl = Config.freeOpl s.latchDrawn := rfl
@[simp] theorem raiseTransportError_tf (v : Byte) (s : State) : (raiseTransportError v s).tf = true := rfl
@[simp] theorem raiseTransportError_mem (v : Byte) (s : State) : (raiseTransportError v s).mem = Memory.forget s.mem (busAddress s.addr).toNat := rfl
@[simp] theorem raiseTransportError_trace (v : Byte) (s : State) : (raiseTransportError v s).trace = s.trace ++ [.wf s.addr v] := rfl
@[simp] theorem raiseTransportError_answers (v : Byte) (s : State) : (raiseTransportError v s).answers = s.answers ++ [.fault .transportError s.sq none] := rfl
@[simp] theorem raiseTransportError_hostScript (v : Byte) (s : State) : (raiseTransportError v s).hostScript = s.hostScript := rfl
@[simp] theorem raiseTransportError_busScript (v : Byte) (s : State) : (raiseTransportError v s).busScript = s.busScript := rfl
@[simp] theorem raiseTransportError_busDrawn (v : Byte) (s : State) : (raiseTransportError v s).busDrawn = s.busDrawn := rfl
@[simp] theorem raiseTransportError_latchDrawn (v : Byte) (s : State) : (raiseTransportError v s).latchDrawn = s.latchDrawn + 1 := rfl

/-! ### raiseIllegalRequest -/

@[simp] theorem raiseIllegalRequest_addr (rq : Request) (s : State) : (raiseIllegalRequest rq s).addr = s.addr := rfl
@[simp] theorem raiseIllegalRequest_width (rq : Request) (s : State) : (raiseIllegalRequest rq s).width = s.width := rfl
@[simp] theorem raiseIllegalRequest_maxLines (rq : Request) (s : State) : (raiseIllegalRequest rq s).maxLines = s.maxLines := rfl
@[simp] theorem raiseIllegalRequest_delays (rq : Request) (s : State) : (raiseIllegalRequest rq s).delays = s.delays := rfl
@[simp] theorem raiseIllegalRequest_bl (rq : Request) (s : State) : (raiseIllegalRequest rq s).bl = s.bl := rfl
@[simp] theorem raiseIllegalRequest_sq (rq : Request) (s : State) : (raiseIllegalRequest rq s).sq = s.sq := rfl
@[simp] theorem raiseIllegalRequest_opm (rq : Request) (s : State) : (raiseIllegalRequest rq s).opm = s.opm := rfl
@[simp] theorem raiseIllegalRequest_opb (rq : Request) (s : State) : (raiseIllegalRequest rq s).opb = s.opb := rfl
@[simp] theorem raiseIllegalRequest_opl (rq : Request) (s : State) : (raiseIllegalRequest rq s).opl = s.opl := rfl
@[simp] theorem raiseIllegalRequest_tf (rq : Request) (s : State) : (raiseIllegalRequest rq s).tf = s.tf := rfl
@[simp] theorem raiseIllegalRequest_mem (rq : Request) (s : State) : (raiseIllegalRequest rq s).mem = s.mem := rfl
@[simp] theorem raiseIllegalRequest_trace (rq : Request) (s : State) : (raiseIllegalRequest rq s).trace = s.trace := rfl
@[simp] theorem raiseIllegalRequest_answers (rq : Request) (s : State) : (raiseIllegalRequest rq s).answers = s.answers ++ [.fault .illegalRequest .idle (some rq)] := rfl
@[simp] theorem raiseIllegalRequest_hostScript (rq : Request) (s : State) : (raiseIllegalRequest rq s).hostScript = s.hostScript := rfl
@[simp] theorem raiseIllegalRequest_busScript (rq : Request) (s : State) : (raiseIllegalRequest rq s).busScript = s.busScript := rfl
@[simp] theorem raiseIllegalRequest_busDrawn (rq : Request) (s : State) : (raiseIllegalRequest rq s).busDrawn = s.busDrawn := rfl
@[simp] theorem raiseIllegalRequest_latchDrawn (rq : Request) (s : State) : (raiseIllegalRequest rq s).latchDrawn = s.latchDrawn := rfl

/-! ### takeAnswer: only the bus's answers move -/

@[simp] theorem takeAnswer_addr (s : State) : (takeAnswer s).addr = s.addr := by
  unfold takeAnswer; split <;> rfl
@[simp] theorem takeAnswer_width (s : State) : (takeAnswer s).width = s.width := by
  unfold takeAnswer; split <;> rfl
@[simp] theorem takeAnswer_maxLines (s : State) : (takeAnswer s).maxLines = s.maxLines := by
  unfold takeAnswer; split <;> rfl
@[simp] theorem takeAnswer_delays (s : State) : (takeAnswer s).delays = s.delays := by
  unfold takeAnswer; split <;> rfl
@[simp] theorem takeAnswer_bl (s : State) : (takeAnswer s).bl = s.bl := by
  unfold takeAnswer; split <;> rfl
@[simp] theorem takeAnswer_sq (s : State) : (takeAnswer s).sq = s.sq := by
  unfold takeAnswer; split <;> rfl
@[simp] theorem takeAnswer_opm (s : State) : (takeAnswer s).opm = s.opm := by
  unfold takeAnswer; split <;> rfl
@[simp] theorem takeAnswer_opb (s : State) : (takeAnswer s).opb = s.opb := by
  unfold takeAnswer; split <;> rfl
@[simp] theorem takeAnswer_opl (s : State) : (takeAnswer s).opl = s.opl := by
  unfold takeAnswer; split <;> rfl
@[simp] theorem takeAnswer_tf (s : State) : (takeAnswer s).tf = s.tf := by
  unfold takeAnswer; split <;> rfl
@[simp] theorem takeAnswer_mem (s : State) : (takeAnswer s).mem = s.mem := by
  unfold takeAnswer; split <;> rfl
@[simp] theorem takeAnswer_trace (s : State) : (takeAnswer s).trace = s.trace := by
  unfold takeAnswer; split <;> rfl
@[simp] theorem takeAnswer_answers (s : State) : (takeAnswer s).answers = s.answers := by
  unfold takeAnswer; split <;> rfl
@[simp] theorem takeAnswer_hostScript (s : State) : (takeAnswer s).hostScript = s.hostScript := by
  unfold takeAnswer; split <;> rfl
@[simp] theorem takeAnswer_latchDrawn (s : State) : (takeAnswer s).latchDrawn = s.latchDrawn := by
  unfold takeAnswer; split <;> rfl

@[simp] theorem takeAnswer_busScript (s : State) : (takeAnswer s).busScript = s.busScript.tail := by
  unfold takeAnswer; split <;> simp_all

end Sys2Proof.Machine
end

