-- ==== Sys2Proof/Laws/Bus.lean ====
section
/-! SUPPORT. The bus transport's answers: what is ahead after one has been given, and that only the two bus fields
decide it. -/

namespace Sys2Proof.Machine

theorem answerAhead_congr {s t : State} (h1 : t.busScript = s.busScript) (h2 : t.busDrawn = s.busDrawn) (n : Nat) :
    t.answerAhead n = s.answerAhead n := by
  simp only [State.answerAhead, h1, h2]

theorem busAnswer_congr {s t : State} (h1 : t.busScript = s.busScript) (h2 : t.busDrawn = s.busDrawn) :
    t.busAnswer = s.busAnswer := answerAhead_congr h1 h2 0

@[simp] theorem answerAhead_takeAnswer (s : State) (n : Nat) :
    (takeAnswer s).answerAhead n = s.answerAhead (n + 1) := by
  obtain ⟨_, _, _, _, _, _, _, _, _, _, _, _, _, _, bus, _, _⟩ := s
  cases bus with
  | nil => simp [takeAnswer, State.answerAhead, Nat.add_comm, Nat.add_left_comm]
  | cons a rest => simp [takeAnswer, State.answerAhead]

@[simp] theorem answerAhead_takeAnswers (k : Nat) (s : State) (n : Nat) :
    (takeAnswers k s).answerAhead n = s.answerAhead (n + k) := by
  induction k generalizing s with
  | zero => rfl
  | succ k ih => simp [takeAnswers, ih, Nat.add_assoc]

@[simp] theorem busAnswer_takeAnswers (k : Nat) (s : State) : (takeAnswers k s).busAnswer = s.answerAhead k := by
  simp [State.busAnswer]

theorem takeAnswers_succ (k : Nat) (s : State) : takeAnswers (k + 1) s = takeAnswer (takeAnswers k s) := by
  induction k generalizing s with
  | zero => rfl
  | succ k ih => rw [takeAnswers, ih]; rfl

theorem BusOk_mono {n m : Nat} {s : State} (h : s.BusOk n) (hm : m ≤ n) : s.BusOk m :=
  fun i hi => h i (by omega)

theorem BusOk_takeAnswers {n k : Nat} {s : State} (h : s.BusOk (n + k)) : (takeAnswers k s).BusOk n := by
  intro i hi; rw [answerAhead_takeAnswers]; exact h _ (by omega)

/-- A record that differs from `takeAnswer s` only outside the bus: the answers move past it. -/
theorem takeAnswer_with (s : State) (sq : Sq) (m : Mode) (b : Byte) (l : Bool) (mem : List Host.Cell) (tr : List Event) :
    takeAnswer { s with sq := sq, opm := m, opb := b, opl := l, mem := mem, trace := tr } =
      { takeAnswer s with sq := sq, opm := m, opb := b, opl := l, mem := mem, trace := tr } := by
  unfold takeAnswer; cases s.busScript <;> rfl

end Sys2Proof.Machine
end

