-- ==== Sys2Proof/Laws/Memory.lean ====
section
/-! SUPPORT. The registers behind the bus: what a read gives after a write or after forgetting, and that both keep the
canonical form. -/

namespace Sys2Proof.Machine

@[simp] theorem Memory.read_nil (a : Nat) : Memory.read [] a = none := rfl

theorem Memory.read_write_self (m : Memory) (a : Nat) (v : Byte) :
    Memory.read (Memory.write m a v) a = some v := by
  induction m with
  | nil => simp [Memory.write, Memory.read]
  | cons c rest ih =>
    obtain ⟨k, x⟩ := c
    simp only [Memory.write]
    split
    · simp [Memory.read]
    · split
      · simp [Memory.read]
      · rename_i h; simp [Memory.read, Ne.symm h, ih]

theorem Memory.read_write_ne (m : Memory) {a b : Nat} (v : Byte) (h : b ≠ a) :
    Memory.read (Memory.write m a v) b = Memory.read m b := by
  induction m with
  | nil => simp [Memory.write, Memory.read, Ne.symm h]
  | cons c rest ih =>
    obtain ⟨k, x⟩ := c
    simp only [Memory.write]
    split
    · simp [Memory.read, Ne.symm h]
    · split
      · rename_i hk; subst hk; simp [Memory.read, Ne.symm h]
      · simp [Memory.read, ih]

theorem Memory.read_forget_ne (m : Memory) {a b : Nat} (h : b ≠ a) :
    Memory.read (Memory.forget m a) b = Memory.read m b := by
  induction m with
  | nil => rfl
  | cons c rest ih =>
    obtain ⟨k, x⟩ := c
    simp only [Memory.forget]
    split
    · rename_i hk; subst hk; simp [Memory.read, Ne.symm h]
    · simp [Memory.read, ih]

theorem Memory.risingFrom_mono {low low' : Nat} (m : Memory) (h : low' ≤ low) :
    Memory.risingFrom low m = true → Memory.risingFrom low' m = true := by
  cases m with
  | nil => simp [Memory.risingFrom]
  | cons c rest =>
    obtain ⟨k, x⟩ := c
    simp only [Memory.risingFrom, Bool.and_eq_true, decide_eq_true_eq]
    exact fun ⟨h1, h2⟩ => ⟨by omega, h2⟩

theorem Memory.read_below {low a : Nat} (m : Memory) (hm : Memory.risingFrom low m = true) (h : a < low) :
    Memory.read m a = none := by
  induction m generalizing low with
  | nil => rfl
  | cons c rest ih =>
    obtain ⟨k, x⟩ := c
    simp only [Memory.risingFrom, Bool.and_eq_true, decide_eq_true_eq] at hm
    have : k ≠ a := by omega
    simp only [Memory.read, this, if_false]
    exact ih hm.2 (by omega)

/-- In the canonical form an address is listed at most once, so forgetting it leaves no value. -/
theorem Memory.read_forget_self {low : Nat} (m : Memory) (a : Nat) (hm : Memory.risingFrom low m = true) :
    Memory.read (Memory.forget m a) a = none := by
  induction m generalizing low with
  | nil => rfl
  | cons c rest ih =>
    obtain ⟨k, x⟩ := c
    simp only [Memory.risingFrom, Bool.and_eq_true, decide_eq_true_eq] at hm
    simp only [Memory.forget]
    split
    · rename_i hk; subst hk; exact Memory.read_below rest hm.2 (by omega)
    · rename_i hk; simp only [Memory.read, hk, if_false]; exact ih hm.2

theorem Memory.risingFrom_write {low : Nat} (m : Memory) (a : Nat) (v : Byte) (ha : low ≤ a) :
    Memory.risingFrom low m = true → Memory.risingFrom low (Memory.write m a v) = true := by
  induction m generalizing low with
  | nil => simp [Memory.write, Memory.risingFrom, ha]
  | cons c rest ih =>
    obtain ⟨k, x⟩ := c
    simp only [Memory.write, Memory.risingFrom, Bool.and_eq_true, decide_eq_true_eq]
    rintro ⟨h1, h2⟩
    split
    · simp only [Memory.risingFrom, Bool.and_eq_true, decide_eq_true_eq]
      exact ⟨ha, by omega, h2⟩
    · split
      · rename_i hk; subst hk
        simp only [Memory.risingFrom, Bool.and_eq_true, decide_eq_true_eq]; exact ⟨h1, h2⟩
      · simp only [Memory.risingFrom, Bool.and_eq_true, decide_eq_true_eq]
        exact ⟨h1, ih (by omega) h2⟩

theorem Memory.risingFrom_forget {low : Nat} (m : Memory) (a : Nat) :
    Memory.risingFrom low m = true → Memory.risingFrom low (Memory.forget m a) = true := by
  induction m generalizing low with
  | nil => simp [Memory.forget]
  | cons c rest ih =>
    obtain ⟨k, x⟩ := c
    simp only [Memory.forget, Memory.risingFrom, Bool.and_eq_true, decide_eq_true_eq]
    rintro ⟨h1, h2⟩
    split
    · exact Memory.risingFrom_mono rest (by omega) h2
    · simp only [Memory.risingFrom, Bool.and_eq_true, decide_eq_true_eq]; exact ⟨h1, ih h2⟩

theorem Memory.keys_write (m : Memory) (a : Nat) (v : Byte) (ha : a < 128) :
    m.all (fun c => decide (c.1 < 128)) = true →
      (Memory.write m a v).all (fun c => decide (c.1 < 128)) = true := by
  induction m with
  | nil => simp [Memory.write, ha]
  | cons c rest ih =>
    obtain ⟨k, x⟩ := c
    simp only [Memory.write, List.all_cons, Bool.and_eq_true, decide_eq_true_eq]
    rintro ⟨h1, h2⟩
    split
    · simp only [List.all_cons, Bool.and_eq_true, decide_eq_true_eq]; exact ⟨ha, h1, h2⟩
    · split
      · simp only [List.all_cons, Bool.and_eq_true, decide_eq_true_eq]; exact ⟨ha, h2⟩
      · simp only [List.all_cons, Bool.and_eq_true, decide_eq_true_eq]; exact ⟨h1, ih h2⟩

theorem Memory.keys_forget (m : Memory) (a : Nat) :
    m.all (fun c => decide (c.1 < 128)) = true →
      (Memory.forget m a).all (fun c => decide (c.1 < 128)) = true := by
  induction m with
  | nil => simp [Memory.forget]
  | cons c rest ih =>
    obtain ⟨k, x⟩ := c
    simp only [Memory.forget, List.all_cons, Bool.and_eq_true, decide_eq_true_eq]
    rintro ⟨h1, h2⟩
    split
    · exact h2
    · simp only [List.all_cons, Bool.and_eq_true, decide_eq_true_eq]; exact ⟨h1, ih h2⟩

/-- A write to a device address keeps the canonical form. -/
theorem Memory.wf_write {m : Memory} {a : Nat} (v : Byte) (ha : a < 128) (h : Memory.wf m = true) :
    Memory.wf (Memory.write m a v) = true := by
  simp only [Memory.wf, Bool.and_eq_true] at h ⊢
  exact ⟨Memory.risingFrom_write m a v (Nat.zero_le _) h.1, Memory.keys_write m a v ha h.2⟩

/-- Forgetting an address keeps the canonical form. -/
theorem Memory.wf_forget {m : Memory} (a : Nat) (h : Memory.wf m = true) : Memory.wf (Memory.forget m a) = true := by
  simp only [Memory.wf, Bool.and_eq_true] at h ⊢
  exact ⟨Memory.risingFrom_forget m a h.1, Memory.keys_forget m a h.2⟩

/-- A second write to an address replaces the first. -/
theorem Memory.write_write (m : Memory) (a : Nat) (v w : Byte) :
    Memory.write (Memory.write m a v) a w = Memory.write m a w := by
  induction m with
  | nil => simp [Memory.write]
  | cons c rest ih =>
    obtain ⟨k, x⟩ := c
    by_cases h1 : a < k
    · simp [Memory.write, h1]
    · by_cases h2 : a = k
      · simp [Memory.write, h2]
      · simp [Memory.write, h1, h2, ih]

theorem busAddress_lt (a : DevAddr) : (busAddress a).toNat < 128 := by
  have := a.isLt; simp only [busAddress, BitVec.toNat_setWidth]; omega

end Sys2Proof.Machine
end

