-- ==== Sys2Proof/Laws/Operands.lean ====
section
/-! SUPPORT. The control byte composed by the sequencer from its latches is the one `Send` composes from its operands
(10_state.md R18 against 40_send.md R70), and what the enable bit does to it. -/

namespace Sys2Proof.Machine

theorem ctrl_highNibble (m : Mode) (b : Byte) (bl : Bool) : ctrl m (highNibble b) bl = composeHi m b bl := by
  revert b; cases m <;> cases bl <;> decide

theorem ctrl_lowNibble (m : Mode) (b : Byte) (bl : Bool) : ctrl m (lowNibble b) bl = composeLo m b bl := by
  revert b; cases m <;> cases bl <;> decide

/-- Every control byte with the enable bit clear is `ctrl` of its fields. -/
theorem ctrl_bit1 (m : Mode) (n : Nibble) (bl : Bool) : (ctrl m n bl).getLsbD 1 = false := by
  revert n; cases m <;> cases bl <;> decide

theorem assertEnable_bit1 (m : Mode) (n : Nibble) (bl : Bool) : (assertEnable (ctrl m n bl)).getLsbD 1 = false := by
  revert n; cases m <;> cases bl <;> decide

/-- The third write of a nibble transfer carries the byte of the first (40_send.md R71). -/
theorem deassertEnable_ctrl (m : Mode) (n : Nibble) (bl : Bool) : deassertEnable (ctrl m n bl) = ctrl m n bl := by
  revert n; cases m <;> cases bl <;> decide

theorem enableField_ctrl (m : Mode) (n : Nibble) (bl : Bool) : enableField (ctrl m n bl) = false := by
  revert n; cases m <;> cases bl <;> decide

theorem enableField_assertEnable (m : Mode) (n : Nibble) (bl : Bool) :
    enableField (assertEnable (ctrl m n bl)) = true := by
  revert n; cases m <;> cases bl <;> decide

theorem deassertEnable_assertEnable (m : Mode) (n : Nibble) (bl : Bool) :
    deassertEnable (assertEnable (ctrl m n bl)) = ctrl m n bl := by
  revert n; cases m <;> cases bl <;> decide

/-- `lo` as a shift within the byte: the mask drops what the shift moved above bit 7 (30_encoding.md R53). -/
theorem lo_eq_shift (b : Byte) : lo b = (b <<< 4) &&& dataMask := by
  revert b; decide

end Sys2Proof.Machine
end

