-- ==== Sys2Proof/Laws/PerInstr.lean ====
section
/-! SUPPORT. Per instruction: its request word lies in its own row of spec/opcode_table.json. -/

namespace Sys2Proof.Laws.TableRow

/-- `match` of the operation's row (30_encoding.md R55). -/
def rowMatch : Instr → Request
  | .cmd _ => 0x000#10
  | .dat _ => 0x100#10
  | .bloff => 0x200#10
  | .blon => 0x201#10
  | .bltgl => 0x202#10

/-- `mask` of the operation's row (30_encoding.md R55). -/
def rowMask : Instr → Request
  | .cmd _ => 0x300#10
  | .dat _ => 0x300#10
  | .bloff => 0x3FF#10
  | .blon => 0x3FF#10
  | .bltgl => 0x3FF#10

/-- The operation's request word matches its own row. -/
def Statement (i : Instr) : Prop := encode i &&& rowMask i = rowMatch i

theorem cmd (b : Byte) : Statement (.cmd b) := by
  unfold Statement; revert b; decide

theorem dat (b : Byte) : Statement (.dat b) := by
  unfold Statement; revert b; decide

theorem bloff : Statement .bloff := by unfold Statement; decide

theorem blon : Statement .blon := by unfold Statement; decide

theorem bltgl : Statement .bltgl := by unfold Statement; decide

end Sys2Proof.Laws.TableRow
end

