-- ==== Sys2Proof/Laws/Sequencer.lean ====
section
/-! SUPPORT. The sequencer, said once: what each kind of step does, what a run of steps does at `Idle` and while a write
does not return, and the state a byte transfer is in after its first k events. -/

namespace Sys2Proof.Machine

theorem seqStep_idle {s : State} (h : s.sq = .idle) : seqStep s = s := by
  simp [seqStep, State.micro, h]

theorem seqStep_ok {s : State} {v : Byte} (h : s.micro = some (.write v)) (ha : s.busAnswer = .ok) :
    seqStep s = advance (completeWrite v (takeAnswer s)) := by
  simp [seqStep, h, memWrite, ha]

theorem seqStep_err {s : State} {v : Byte} (h : s.micro = some (.write v)) (ha : s.busAnswer = .err) :
    seqStep s = raiseTransportError v (takeAnswer s) := by
  simp [seqStep, h, memWrite, ha]

theorem seqStep_never {s : State} {v : Byte} (h : s.micro = some (.write v)) (ha : s.busAnswer = .never) :
    seqStep s = s := by
  simp [seqStep, h, memWrite, ha]

theorem seqStep_delay {s : State} {d : Nat} (h : s.micro = some (.delay d)) :
    seqStep s = advance (emit (.t d) s) := by
  simp [seqStep, h, delay]

theorem advance_last {s : State} (h : s.sq.succ = .idle) : advance s = reply .done (goIdle s) := by
  simp [advance, h]

theorem advance_next {s : State} (h : s.sq.succ ≠ .idle) : advance s = { s with sq := s.sq.succ } := by
  unfold advance; split
  · contradiction
  · rfl

/-- Everything a step of the sequencer can do. -/
theorem seqStep_cases (s : State) :
    (s.sq = .idle ∧ seqStep s = s) ∨
    (∃ v, s.micro = some (.write v) ∧ s.busAnswer = .ok ∧ seqStep s = advance (completeWrite v (takeAnswer s))) ∨
    (∃ v, s.micro = some (.write v) ∧ s.busAnswer = .err ∧ seqStep s = raiseTransportError v (takeAnswer s)) ∨
    (∃ v, s.micro = some (.write v) ∧ s.busAnswer = .never ∧ seqStep s = s) ∨
    (∃ d, s.micro = some (.delay d) ∧ seqStep s = advance (emit (.t d) s)) := by
  cases hm : s.micro with
  | none =>
    refine .inl ⟨?_, by simp [seqStep, hm]⟩
    revert hm; simp only [State.micro]; split <;> simp_all
  | some e =>
    cases e with
    | delay d => exact .inr (.inr (.inr (.inr ⟨d, rfl, seqStep_delay hm⟩)))
    | write v =>
      cases ha : s.busAnswer with
      | ok => exact .inr (.inl ⟨v, rfl, rfl, seqStep_ok hm ha⟩)
      | err => exact .inr (.inr (.inl ⟨v, rfl, rfl, seqStep_err hm ha⟩))
      | never => exact .inr (.inr (.inr (.inl ⟨v, rfl, rfl, seqStep_never hm ha⟩)))

theorem runSeq_fixed {s : State} (h : seqStep s = s) (n : Nat) : runSeq n s = s := by
  induction n with
  | zero => rfl
  | succ n ih => rw [runSeq, h, ih]

theorem runSeq_idle {s : State} (h : s.sq = .idle) (n : Nat) : runSeq n s = s := runSeq_fixed (seqStep_idle h) n

theorem runSeq_add (m n : Nat) (s : State) : runSeq (m + n) s = runSeq n (runSeq m s) := by
  induction m generalizing s with
  | zero => simp [runSeq]
  | succ m ih => rw [Nat.add_right_comm, runSeq, ih]; rfl

theorem runSeq_succ (n : Nat) (s : State) : runSeq (n + 1) s = seqStep (runSeq n s) := runSeq_add n 1 s

/-! ### A byte transfer after its first k events -/

/-- The writes among the first `j` events of a byte transfer (the table of 10_state.md R17). -/
def writesBefore : Nat → Nat
  | 0 => 0
  | 1 => 1
  | 2 => 2
  | 3 => 2
  | 4 => 3
  | 5 => 3
  | 6 => 4
  | 7 => 5
  | 8 => 5
  | _ => 6

/-- The step after the first `j` events. -/
def stepAt : Nat → Sq
  | 0 => .s0
  | 1 => .s1
  | 2 => .s2
  | 3 => .s3
  | 4 => .s4
  | 5 => .s5
  | 6 => .s6
  | 7 => .s7
  | 8 => .s8
  | 9 => .s9
  | _ => .idle

/-- The registers behind the bus after `n` successful writes of a byte transfer. -/
def memAfter (m : Mode) (b : Byte) (s : State) : Nat → Memory
  | 0 => s.mem
  | n + 1 => Memory.write s.mem (busAddress s.addr).toNat (writeValue m b s.bl n)

/-- The state of a byte transfer accepted in `s` after its first `j` events (j at most 9), every write having succeeded. -/
def midState (m : Mode) (b : Byte) (s : State) (j : Nat) : State :=
  { takeAnswers (writesBefore j) s with
    sq := stepAt j
    opm := m
    opb := b
    opl := s.bl
    mem := memAfter m b s (writesBefore j)
    trace := s.trace ++ (sendTrace s.delays s.addr m b s.bl).take j }

theorem takeAnswers_kept (n : Nat) (s : State) :
    (takeAnswers n s).addr = s.addr ∧ (takeAnswers n s).width = s.width ∧ (takeAnswers n s).maxLines = s.maxLines ∧
    (takeAnswers n s).bl = s.bl ∧ (takeAnswers n s).sq = s.sq ∧ (takeAnswers n s).opm = s.opm ∧
    (takeAnswers n s).opb = s.opb ∧ (takeAnswers n s).opl = s.opl ∧ (takeAnswers n s).tf = s.tf ∧
    (takeAnswers n s).mem = s.mem ∧ (takeAnswers n s).trace = s.trace ∧ (takeAnswers n s).answers = s.answers ∧
    (takeAnswers n s).hostScript = s.hostScript ∧ (takeAnswers n s).latchDrawn = s.latchDrawn ∧
    (takeAnswers n s).delays = s.delays := by
  induction n generalizing s with
  | zero => simp [takeAnswers]
  | succ n ih => have := ih (takeAnswer s); simpa [takeAnswers] using this

@[simp] theorem takeAnswers_addr (n : Nat) (s : State) : (takeAnswers n s).addr = s.addr := (takeAnswers_kept n s).1
@[simp] theorem takeAnswers_width (n : Nat) (s : State) : (takeAnswers n s).width = s.width := (takeAnswers_kept n s).2.1
@[simp] theorem takeAnswers_maxLines (n : Nat) (s : State) : (takeAnswers n s).maxLines = s.maxLines :=
  (takeAnswers_kept n s).2.2.1
@[simp] theorem takeAnswers_bl (n : Nat) (s : State) : (takeAnswers n s).bl = s.bl := (takeAnswers_kept n s).2.2.2.1
@[simp] theorem takeAnswers_sq (n : Nat) (s : State) : (takeAnswers n s).sq = s.sq := (takeAnswers_kept n s).2.2.2.2.1
@[simp] theorem takeAnswers_tf (n : Nat) (s : State) : (takeAnswers n s).tf = s.tf :=
  (takeAnswers_kept n s).2.2.2.2.2.2.2.2.1
@[simp] theorem takeAnswers_mem (n : Nat) (s : State) : (takeAnswers n s).mem = s.mem :=
  (takeAnswers_kept n s).2.2.2.2.2.2.2.2.2.1
@[simp] theorem takeAnswers_trace (n : Nat) (s : State) : (takeAnswers n s).trace = s.trace :=
  (takeAnswers_kept n s).2.2.2.2.2.2.2.2.2.2.1
@[simp] theorem takeAnswers_answers (n : Nat) (s : State) : (takeAnswers n s).answers = s.answers :=
  (takeAnswers_kept n s).2.2.2.2.2.2.2.2.2.2.2.1
@[simp] theorem takeAnswers_hostScript (n : Nat) (s : State) : (takeAnswers n s).hostScript = s.hostScript :=
  (takeAnswers_kept n s).2.2.2.2.2.2.2.2.2.2.2.2.1
@[simp] theorem takeAnswers_latchDrawn (n : Nat) (s : State) : (takeAnswers n s).latchDrawn = s.latchDrawn :=
  (takeAnswers_kept n s).2.2.2.2.2.2.2.2.2.2.2.2.2.1
@[simp] theorem takeAnswers_delays (n : Nat) (s : State) : (takeAnswers n s).delays = s.delays :=
  (takeAnswers_kept n s).2.2.2.2.2.2.2.2.2.2.2.2.2.2

theorem midState_zero (m : Mode) (b : Byte) (s : State) : midState m b s 0 = acceptTransfer m b s := by
  simp [midState, writesBefore, takeAnswers, stepAt, memAfter, acceptTransfer]

theorem midState_busAnswer (m : Mode) (b : Byte) (s : State) (j : Nat) :
    (midState m b s j).busAnswer = s.answerAhead (writesBefore j) := by
  rw [← busAnswer_takeAnswers]; exact busAnswer_congr rfl rfl

theorem midState_latchedHi (m : Mode) (b : Byte) (s : State) (j : Nat) :
    (midState m b s j).latchedHi = composeHi m b s.bl := by
  simp [State.latchedHi, midState, ctrl_highNibble]

theorem midState_latchedLo (m : Mode) (b : Byte) (s : State) (j : Nat) :
    (midState m b s j).latchedLo = composeLo m b s.bl := by
  simp [State.latchedLo, midState, ctrl_lowNibble]

/-- What the sequencer does next after the first `j` events: the event of that place in the table of 10_state.md R17. -/
def microAt (dl : Delays) (m : Mode) (b : Byte) (bl : Bool) : Nat → Option Micro
  | 0 => some (.write (composeHi m b bl))
  | 1 => some (.write (assertEnable (composeHi m b bl)))
  | 2 => some (.delay dl.pulse)
  | 3 => some (.write (deassertEnable (composeHi m b bl)))
  | 4 => some (.delay dl.settle)
  | 5 => some (.write (composeLo m b bl))
  | 6 => some (.write (assertEnable (composeLo m b bl)))
  | 7 => some (.delay dl.pulse)
  | 8 => some (.write (deassertEnable (composeLo m b bl)))
  | 9 => some (.delay dl.settle)
  | _ => none

theorem midState_micro (m : Mode) (b : Byte) (s : State) {j : Nat} (hj : j ≤ 9) :
    (midState m b s j).micro = microAt s.delays m b s.bl j := by
  have hi := midState_latchedHi m b s j
  have hl := midState_latchedLo m b s j
  have hs : (midState m b s j).sq = stepAt j := rfl
  have hd : (midState m b s j).delays = s.delays := by simp [midState]
  unfold State.micro
  rw [hs, hi, hl, hd]
  interval_cases j <;> rfl

/-- One more event of a byte transfer whose write, if it is one, succeeds. -/
theorem seqStep_midState (m : Mode) (b : Byte) (s : State) {j : Nat} (hj : j ≤ 8)
    (ha : writesBefore (j + 1) ≠ writesBefore j → s.answerAhead (writesBefore j) = .ok) :
    seqStep (midState m b s j) = midState m b s (j + 1) := by
  have hmic := midState_micro m b s (j := j) (by omega)
  have hbus := midState_busAnswer m b s j
  interval_cases j
  all_goals first
    | rw [seqStep_delay hmic, advance_next (by simp [midState, stepAt, Sq.succ])]
      simp [emit, midState, writesBefore, stepAt, memAfter, writeValue, sendTrace, strobeTrace, Sq.succ]
    | rw [seqStep_ok hmic (by rw [hbus]; exact ha (by decide)), advance_next (by simp [midState, stepAt, Sq.succ])]
      simp only [completeWrite, emit, midState, takeAnswer_with]
      simp [writesBefore, stepAt, memAfter, writeValue, sendTrace, strobeTrace, Sq.succ, ← takeAnswers_succ,
        Memory.write_write]

/-- A byte transfer after its first `j` events, every write among them having succeeded. -/
theorem runSeq_midState (m : Mode) (b : Byte) (s : State) {j : Nat} (hj : j ≤ 9) (ha : s.BusOk (writesBefore j)) :
    runSeq j (acceptTransfer m b s) = midState m b s j := by
  induction j with
  | zero => simp [runSeq, midState_zero]
  | succ j ih =>
    have hle : writesBefore j ≤ writesBefore (j + 1) := by
      have : j ≤ 8 := by omega
      interval_cases j <;> decide
    rw [runSeq_succ, ih (by omega) (BusOk_mono ha hle)]
    exact seqStep_midState m b s (by omega) (fun hne => ha _ (by omega))

end Sys2Proof.Machine
end

