-- ==== Sys2Proof/Laws/Step.lean ====
section
/-! SUPPORT. What a step and an operation can do, said once: the cases of `step`, and the outcomes of a byte transfer. -/

namespace Sys2Proof.Machine

theorem busy_iff (s : State) : s.busy = true ↔ s.sq ≠ .idle := by simp [State.busy]

theorem busy_eq_false (s : State) : s.busy = false ↔ s.sq = .idle := by simp [State.busy]

theorem whenIdle_of_idle {s : State} (h : s.sq = .idle) (op : State → State) : whenIdle op s = op s := by
  simp [whenIdle, (busy_eq_false s).2 h]

theorem whenIdle_of_busy {s : State} (h : s.sq ≠ .idle) (op : State → State) : whenIdle op s = s := by
  simp [whenIdle, (busy_iff s).2 h]

/-- The state an operation leads to: `exec` always answers a next state. -/
def afterOp (i : Instr) (s : State) : State :=
  match i with
  | .cmd b => whenIdle (transfer .command b) s
  | .dat b => whenIdle (transfer .data b) s
  | .bloff => whenIdle (setBacklight false) s
  | .blon => whenIdle (setBacklight true) s
  | .bltgl => whenIdle (setBacklight (!s.bl)) s

theorem exec_eq (i : Instr) (s : State) : exec i s = .next (afterOp i s) := by cases i <;> rfl

/-- Everything a step can do. -/
theorem step_cases {s t : State} (h : step s = .next t) :
    (s.sq ≠ .idle ∧ t = seqStep s) ∨
    (s.sq = .idle ∧ s.hostScript = [] ∧ t = s) ∨
    (∃ d rest, s.sq = .idle ∧ s.hostScript = .wait d :: rest ∧ t = hostWait d (popAction s)) ∨
    (∃ rq rest i, s.sq = .idle ∧ s.hostScript = .request rq :: rest ∧ decode rq = .instr i ∧
      t = afterOp i (popAction s)) ∨
    (∃ rq rest why, s.sq = .idle ∧ s.hostScript = .request rq :: rest ∧ decode rq = .reserved why ∧
      t = raiseIllegalRequest rq (popAction s)) := by
  unfold step at h
  by_cases hb : s.sq = .idle
  · rw [(busy_eq_false s).2 hb] at h
    simp only [Bool.false_eq_true, if_false, State.nextAction] at h
    cases hs : s.hostScript with
    | nil => simp only [hs, List.head?_nil] at h; exact .inr (.inl ⟨hb, rfl, by injection h with h; exact h.symm⟩)
    | cons a rest =>
      cases a with
      | wait d =>
        simp only [hs, List.head?_cons] at h
        exact .inr (.inr (.inl ⟨d, rest, hb, rfl, by injection h with h; exact h.symm⟩))
      | request rq =>
        simp only [hs, List.head?_cons] at h
        cases hd : decode rq with
        | instr i =>
          simp only [hd, exec_eq] at h
          exact .inr (.inr (.inr (.inl ⟨rq, rest, i, hb, rfl, hd, by injection h with h; exact h.symm⟩)))
        | reserved why =>
          simp only [hd] at h
          exact .inr (.inr (.inr (.inr ⟨rq, rest, why, hb, rfl, hd, by injection h with h; exact h.symm⟩)))
  · rw [(busy_iff s).2 hb] at h
    exact .inl ⟨hb, by simp only [if_true] at h; injection h with h; exact h.symm⟩

/-- A byte transfer runs from its state after `j` events on. -/
theorem transfer_from (m : Mode) (b : Byte) (s : State) {j : Nat} (hj : j ≤ 9) (ha : s.BusOk (writesBefore j)) :
    transfer m b s = runSeq (10 - j) (midState m b s j) := by
  have h : 10 = j + (10 - j) := by omega
  conv => lhs; unfold transfer; rw [h]
  rw [runSeq_add, runSeq_midState m b s hj ha]

/-- The state after a byte transfer whose six writes succeed: all ten events done, and the answer `Done`. -/
theorem transfer_done (m : Mode) (b : Byte) (s : State) (ha : s.BusOk 6) :
    transfer m b s =
      reply .done (goIdle { takeAnswers 6 s with
        opm := m
        opb := b
        opl := s.bl
        mem := memAfter m b s 6
        trace := s.trace ++ sendTrace s.delays s.addr m b s.bl }) := by
  rw [transfer_from m b s (j := 9) (by omega) ha]
  show runSeq 1 (midState m b s 9) = _
  have hm := midState_micro m b s (j := 9) (by omega)
  rw [runSeq, runSeq, seqStep_delay hm, advance_last (by simp [midState, stepAt, Sq.succ])]
  simp [emit, midState, writesBefore, sendTrace, strobeTrace, goIdle, reply]

/-- The event before which the k-th write stands. -/
def eventOf : Nat → Nat
  | 0 => 0
  | 1 => 1
  | 2 => 3
  | 3 => 5
  | 4 => 6
  | _ => 8

theorem writesBefore_eventOf {k : Nat} (hk : k < 6) : writesBefore (eventOf k) = k := by
  interval_cases k <;> rfl

theorem stepAt_eventOf {k : Nat} (hk : k < 6) : stepAt (eventOf k) = writeStep k := by
  interval_cases k <;> rfl

theorem microAt_eventOf (dl : Delays) (m : Mode) (b : Byte) (bl : Bool) {k : Nat} (hk : k < 6) :
    microAt dl m b bl (eventOf k) = some (.write (writeValue m b bl k)) := by
  interval_cases k <;> rfl

/-- A byte transfer whose k-th write fails, k from 0, those before it having succeeded. -/
theorem transfer_err (m : Mode) (b : Byte) (s : State) {k : Nat} (hk : k < 6) (ha : s.BusOk k)
    (he : s.answerAhead k = .err) :
    transfer m b s = raiseTransportError (writeValue m b s.bl k) (takeAnswer (midState m b s (eventOf k))) := by
  have hj : eventOf k ≤ 8 := by interval_cases k <;> decide
  have hw := writesBefore_eventOf hk
  rw [transfer_from m b s (j := eventOf k) (by omega) (by rw [hw]; exact ha)]
  obtain ⟨n, hn⟩ : ∃ n, 10 - eventOf k = n + 1 := ⟨9 - eventOf k, by omega⟩
  have hm := midState_micro m b s (j := eventOf k) (by omega)
  rw [microAt_eventOf s.delays m b s.bl hk] at hm
  rw [hn, runSeq, seqStep_err hm (by rw [midState_busAnswer, hw]; exact he)]
  exact runSeq_idle rfl n

/-- A byte transfer whose k-th write never returns, those before it having succeeded: the block stays there. -/
theorem transfer_never (m : Mode) (b : Byte) (s : State) {k : Nat} (hk : k < 6) (ha : s.BusOk k)
    (he : s.answerAhead k = .never) :
    transfer m b s = midState m b s (eventOf k) := by
  have hj : eventOf k ≤ 8 := by interval_cases k <;> decide
  have hw := writesBefore_eventOf hk
  have hm := midState_micro m b s (j := eventOf k) (by omega)
  rw [microAt_eventOf s.delays m b s.bl hk] at hm
  rw [transfer_from m b s (j := eventOf k) (by omega) (by rw [hw]; exact ha)]
  exact runSeq_fixed (seqStep_never hm (by rw [midState_busAnswer, hw]; exact he)) _

/-- A host with nothing left to do, and the block idle: the run has ended. -/
theorem ended_of_nil {s : State} (hs : s.hostScript = []) (h : s.sq = .idle) : s.Ended :=
  ⟨fun a ha => by simp [hs] at ha, h⟩

/-- A run of the machine, one step at a time. -/
theorem runSteps_step {s t : State} (h : step s = .next t) (n : Nat) : runSteps (n + 1) s = runSteps n t := by
  simp [runSteps, h]

/-- `runSteps` is the host's own `run` of the machine. -/
theorem runSteps_eq_run (n : Nat) (s : State) : Host.Core.run Sys2Proof.core n s = runSteps n s := by
  induction n generalizing s with
  | zero => rfl
  | succ n ih =>
    refine (Host.Core.run.eq_2 Sys2Proof.core s n).trans ?_
    unfold runSteps
    have hs : Sys2Proof.core.step s = step s := rfl
    revert hs
    generalize step s = o
    intro hs
    rw [hs]
    cases o with
    | next t => exact ih t
    | fault r => rfl
    | refused r => rfl

/-- The three ways a byte transfer goes: six writes succeed, or there is a first one that does not. -/
theorem busOk_or_first (s : State) (n : Nat) :
    s.BusOk n ∨ ∃ k, k < n ∧ s.BusOk k ∧ (s.answerAhead k = .err ∨ s.answerAhead k = .never) := by
  induction n with
  | zero => exact .inl (fun i hi => absurd hi (by omega))
  | succ n ih =>
    rcases ih with h | ⟨k, hk, h1, h2⟩
    · cases hn : s.answerAhead n with
      | ok => exact .inl (fun i hi => by rcases Nat.lt_succ_iff_lt_or_eq.1 hi with h' | rfl; exacts [h i h', hn])
      | err => exact .inr ⟨n, by omega, h, .inl hn⟩
      | never => exact .inr ⟨n, by omega, h, .inr hn⟩
    · exact .inr ⟨k, by omega, h1, h2⟩

end Sys2Proof.Machine
end

