-- ==== Sys2Proof/Tests/Slice0.lean ====
section
/-! SUPPORT. Tests: the checks of WellFormed on ill-formed terms, words written out bit by bit, small one-step tests with
the values of 95_test_vectors.md, and for every statement with hypotheses a witness that meets them. -/

namespace Sys2Proof.Machine

/-! ### Helpers -/

/-- A field of the next state an outcome answers, if it answers one. -/
def fieldOf {α : Type} (f : State → α) : Host.Outcome State Fault Refusal → Option α
  | .next t => some (f t)
  | .fault _ => none
  | .refused _ => none

/-- The fault an outcome answers, if it answers one. -/
def faultOf : Host.Outcome State Fault Refusal → Option Fault
  | .next _ => none
  | .fault f => some f
  | .refused _ => none

/-- The reset state with the bus's next answers. -/
def onBus (answers : List BusAnswer) : State := State.reset.withBus answers

/-- The bus takes six bytes. -/
def sixOk : List BusAnswer := [.ok, .ok, .ok, .ok, .ok, .ok]

/-- The block at the step `q` of `DAT 0x41`, backlight on, with the bus's next answers. -/
def atStep (q : Sq) (answers : List BusAnswer) : State :=
  { onBus answers with sq := q, opm := .data, opb := 0x41#8, opl := true }

/-- The block at `S1` of `DAT 0x41`, its first write done. -/
def atS1 : State :=
  { atStep .s1 sixOk with mem := [(0x27, 0x49#8)], trace := [.w 0x27#7 0x49#8] }

/-! ### WellFormed (60_exceptions.md R104) -/

theorem test_width_zero_is_refused : Params.wf ⟨0x27, 0, 2, true⟩ = false := by decide
theorem test_width_negative_is_refused : Params.widthOk ⟨0x27, -1, 2, true⟩ = false := by decide
theorem test_max_lines_zero_is_refused : Params.wf ⟨0x27, 16, 0, true⟩ = false := by decide
theorem test_max_lines_five_is_refused : Params.maxLinesOk ⟨0x27, 16, 5, true⟩ = false := by decide
theorem test_address_0x80_is_refused : Params.wf ⟨0x80, 16, 2, true⟩ = false := by decide
theorem test_short_delays_are_refused :
    Delays.wf ⟨499, 500⟩ = false ∧ Delays.wf ⟨500, 499⟩ = false ∧ Delays.wf ⟨500, 500⟩ = true := by decide
theorem test_boundary_params_are_legal :
    Params.wf ⟨0x00, 1, 1, false⟩ = true ∧ Params.wf ⟨0x7F, 1000, 4, true⟩ = true := by decide
theorem test_instructions_are_well_formed :
    Instr.wf (.cmd 0xFF#8) = true ∧ Instr.wf (.dat 0x00#8) = true ∧ Instr.wf .bloff = true ∧
    Instr.wf .blon = true ∧ Instr.wf .bltgl = true := by decide
theorem test_illegal_construction_gives_no_block :
    faultOf (construct Config.defaultDelays ⟨0x80, 0, 5, true⟩) = some (.configurationError [.width, .maxLines, .address]) ∧
    faultOf (construct Config.defaultDelays ⟨0x27, 0, 2, true⟩) = some (.configurationError [.width]) := by decide

/-! ### Decoding (95_test_vectors.md section 2.5), the words as bits 9..0 -/

theorem test_decode_cmd : decode 0b0000101000#10 = .instr (.cmd 0x28#8) := by decide
theorem test_decode_dat : decode 0b0101000001#10 = .instr (.dat 0x41#8) := by decide
theorem test_decode_bloff : decode 0b1000000000#10 = .instr .bloff := by decide
theorem test_decode_blon : decode 0b1000000001#10 = .instr .blon := by decide
theorem test_decode_bltgl : decode 0b1000000010#10 = .instr .bltgl := by decide
theorem test_reserved_words :
    decode 0x203#10 = .reserved .fn ∧ decode 0x204#10 = .reserved .immBits ∧ decode 0x210#10 = .reserved .immBits ∧
    decode 0x2FF#10 = .reserved .immBits ∧ decode 0x300#10 = .reserved .op ∧ decode 0x341#10 = .reserved .op ∧
    decode 0x3FF#10 = .reserved .op := by decide
theorem test_decode_table_word :
    decodeTableWord 16 0x141 = some (.dat 0x41#8) ∧ decodeTableWord 16 0x202 = some .bltgl ∧
    decodeTableWord 16 0x203 = none ∧ decodeTableWord 16 0x400 = none := by decide
theorem test_encode :
    encode (.cmd 0xFF#8) = 0b0011111111#10 ∧ encode (.dat 0xFF#8) = 0b0111111111#10 ∧
    encode .bloff = 0b1000000000#10 ∧ encode .blon = 0b1000000001#10 ∧ encode .bltgl = 0b1000000010#10 := by decide

/-! ### Operations (95_test_vectors.md sections 2.3, 2.6, 2.7) -/

theorem test_cmd_0x28_backlight_on :
    fieldOf (fun t => writesTo 0x27#7 t.trace) (exec (.cmd 0x28#8) (onBus sixOk)) =
      some [0x28#8, 0x2C#8, 0x28#8, 0x88#8, 0x8C#8, 0x88#8] := by decide
theorem test_cmd_0x00_backlight_off :
    fieldOf (fun t => writesTo 0x27#7 t.trace) (exec (.cmd 0x00#8) { onBus sixOk with bl := false }) =
      some [0x00#8, 0x04#8, 0x00#8, 0x00#8, 0x04#8, 0x00#8] := by decide
theorem test_dat_0x41_full_trace :
    fieldOf State.trace (exec (.dat 0x41#8) (onBus sixOk)) =
      some [.w 0x27#7 0x49#8, .w 0x27#7 0x4D#8, .t 500, .w 0x27#7 0x49#8, .t 500,
        .w 0x27#7 0x19#8, .w 0x27#7 0x1D#8, .t 500, .w 0x27#7 0x19#8, .t 500] := by decide
theorem test_dat_0x41_fault_at_s5 :
    fieldOf State.trace (exec (.dat 0x41#8) (onBus [.ok, .ok, .ok, .err])) =
      some [.w 0x27#7 0x49#8, .w 0x27#7 0x4D#8, .t 500, .w 0x27#7 0x49#8, .t 500, .wf 0x27#7 0x19#8] ∧
    fieldOf (fun t => (t.sq, t.tf, t.bl, t.answers)) (exec (.dat 0x41#8) (onBus [.ok, .ok, .ok, .err])) =
      some (.idle, true, true, [.fault .transportError .s5 none]) := by decide
theorem test_dat_0x41_hang_at_s3 :
    fieldOf State.trace (exec (.dat 0x41#8) (onBus [.ok, .ok, .never])) =
      some [.w 0x27#7 0x49#8, .w 0x27#7 0x4D#8, .t 500] ∧
    fieldOf (fun t => (t.sq, t.busy, t.tf, t.answers)) (exec (.dat 0x41#8) (onBus [.ok, .ok, .never])) =
      some (.s3, true, false, []) := by decide
theorem test_bloff :
    fieldOf (fun t => (t.bl, t.trace, t.answers)) (exec .bloff State.reset) = some (false, [], [.done]) := by decide
theorem test_blon :
    fieldOf (fun t => (t.bl, t.trace)) (exec .blon { State.reset with bl := false }) = some (true, []) := by decide
theorem test_bltgl :
    fieldOf State.bl (exec .bltgl State.reset) = some false ∧
    fieldOf State.bl (exec .bltgl { State.reset with bl := false }) = some true := by decide

/-! ### One step of the machine (95_test_vectors.md P5; 10_state.md R17) -/

theorem test_reserved_request_has_no_effect :
    fieldOf (fun t => (t.trace, t.tf, t.bl, t.answers)) (step (State.reset.withFetchWord 16 0x3A5)) =
      some ([], false, true, [.fault .illegalRequest .idle (some 0x3A5#10)]) := by decide
theorem test_fetched_word_runs :
    fieldOf State.bl (step (State.reset.withFetchWord 16 0x200)) = some false := by decide
theorem test_sequencer_at_s8 :
    fieldOf (fun t => (t.trace, t.sq)) (step (atStep .s8 [.ok])) = some ([.w 0x27#7 0x19#8], .s9) := by decide
theorem test_wait :
    fieldOf State.trace (step (State.reset.withHost [.wait 700])) = some [.t 700] := by decide
theorem test_longer_delay_of_the_build :
    fieldOf State.trace (step { atStep .s2 [] with delays := ⟨700, 900⟩ }) = some [.t 700] ∧
    fieldOf State.trace (step { atStep .s9 [] with delays := ⟨700, 900⟩ }) = some [.t 900] := by decide
theorem test_adapter_register :
    fieldOf State.mem (step (atStep .s6 [.ok])) = some [(0x27, 0x1D#8)] := by decide

/-! ### The host's sequences and the notation (95_test_vectors.md section 2.8; 30_encoding.md R61) -/

theorem test_line_7 : lineSeq 7 = [.request 0x080#10] := by decide
theorem test_wrline_hi :
    wrlineSeq 4 ['H', 'i'] 2 =
      some [.request 0x0C0#10, .request 0x148#10, .request 0x169#10, .request 0x120#10, .request 0x120#10] := by decide
theorem test_program_takes_width_from_the_register :
    State.expandProgram { State.reset with width := 2 } [.wrline ['H'] 2, .wait 1] =
      some [.request 0x0C0#10, .request 0x148#10, .request 0x120#10, .wait 1] := by decide
theorem test_wrline_truncates :
    wrlineSeq 4 ['A', 'B', 'C', 'D', 'E'] 1 =
      some [.request 0x080#10, .request 0x141#10, .request 0x142#10, .request 0x143#10, .request 0x144#10] := by decide
theorem test_assembler_hex : assembleLine ['C', 'M', 'D', ' ', ' ', '0', 'x', '2', '8', ' ', ';', 'x'] = .op (.cmd 0x28#8) := by
  decide
theorem test_assembler_decimal_and_literal :
    assembleLine ['D', 'A', 'T', ' ', '2', '5', '5'] = .op (.dat 0xFF#8) ∧
    assembleLine ['D', 'A', 'T', ' ', '2', '5', '6'] = .malformed ∧
    assembleLine ['D', 'A', 'T', ' ', '\'', 'A', '\''] = .op (.dat 0x41#8) := by decide
theorem test_odd_nibbles_after_a_fault :
    latched 0x27#7 ([.w 0x27#7 0x49#8, .w 0x27#7 0x4D#8, .t 500, .w 0x27#7 0x49#8, .t 500, .wf 0x27#7 0x89#8] ++
      sendTrace Config.defaultDelays 0x27#7 .data 0x65#8 true) = [(.data, 0x4#4), (.data, 0x6#4), (.data, 0x5#4)] := by decide

/-- A run ends at the last operation's answer: a `WAIT` left over keeps it ended, an operation does not (R134, R9, R96). -/
theorem test_ended_before_a_trailing_wait :
    (State.reset.withHost [.wait 500]).Ended ∧ ¬ (State.reset.withHost [.wait 500, .request 0x202#10]).Ended ∧
    ¬ (atStep .s0 []).Ended := by
  unfold State.Ended
  decide

/-! ### Witnesses: states and operands that meet the hypotheses of each statement -/

theorem bus_six_ok : (onBus sixOk).BusOk 6 := by unfold State.BusOk; decide

theorem bus_ok_then (a : BusAnswer) : (onBus [a]).BusOk 0 ∧ (onBus [a]).answerAhead 0 = a ∧
    (onBus [.ok, .ok, .ok, .ok, .ok, a]).BusOk 5 ∧ (onBus [.ok, .ok, .ok, .ok, .ok, a]).answerAhead 5 = a := by
  refine ⟨?_, rfl, ?_, rfl⟩ <;> unfold State.BusOk
  · intro i hi; omega
  · cases a <;> decide

/-- A byte transfer on a bus that takes six bytes: CmdSendsTheByteAsACommand, DatSendsTheByteAsData,
ByteTransferHasExactlyThisNextState, ByteTransferIsSixWritesAndFourDelays; and the two that ask for `sq = .idle` alone. -/
theorem witness_byte_transfer_ok : (onBus sixOk).sq = .idle ∧ (onBus sixOk).BusOk 6 := ⟨rfl, bus_six_ok⟩

/-- The first and the last write failing: the fault clauses of CmdSendsTheByteAsACommand, DatSendsTheByteAsData,
ByteTransferFailsOnlyAtAWrite, FaultLeavesTheseWritesBehindTheBus. -/
theorem witness_byte_transfer_err :
    ((onBus [.err]).sq = .idle ∧ 0 < 6 ∧ (onBus [.err]).BusOk 0 ∧ (onBus [.err]).answerAhead 0 = .err) ∧
    ((onBus [.ok, .ok, .ok, .ok, .ok, .err]).sq = .idle ∧ 5 < 6 ∧ (onBus [.ok, .ok, .ok, .ok, .ok, .err]).BusOk 5 ∧
      (onBus [.ok, .ok, .ok, .ok, .ok, .err]).answerAhead 5 = .err) :=
  ⟨⟨rfl, by decide, (bus_ok_then .err).1, rfl⟩, ⟨rfl, by decide, (bus_ok_then .err).2.2.1, rfl⟩⟩

/-- The first and the last write hanging: HungWriteHangsTheBlockForEver, and its clause about a state at a write step. -/
theorem witness_byte_transfer_never :
    ((onBus [.never]).sq = .idle ∧ (onBus [.never]).BusOk 0 ∧ (onBus [.never]).answerAhead 0 = .never) ∧
    ((onBus [.ok, .ok, .ok, .ok, .ok, .never]).sq = .idle ∧ (onBus [.ok, .ok, .ok, .ok, .ok, .never]).BusOk 5 ∧
      (onBus [.ok, .ok, .ok, .ok, .ok, .never]).answerAhead 5 = .never) ∧
    (∃ v, (atStep .s8 [.never]).micro = some (.write v) ∧ (atStep .s8 [.never]).busAnswer = .never) :=
  ⟨⟨rfl, (bus_ok_then .never).1, rfl⟩, ⟨rfl, (bus_ok_then .never).2.2.1, rfl⟩, ⟨_, rfl, rfl⟩⟩

/-- The clause "only if a write fails" of CmdSendsTheByteAsACommand and DatSendsTheByteAsData, and of
ByteTransferFailsOnlyAtAWrite the clause about its answers. -/
theorem witness_transfer_sets_tf :
    (∃ t, exec (.cmd 0x28#8) (onBus [.err]) = .next t ∧ (onBus [.err]).tf = false ∧ t.tf = true) ∧
    (∃ t, exec (.dat 0x41#8) (onBus [.err]) = .next t ∧ (onBus [.err]).tf = false ∧ t.tf = true ∧
      Answer.fault .transportError .s0 none ∈ t.answers ∧ Answer.fault .transportError .s0 none ∉ (onBus [.err]).answers) :=
  ⟨⟨_, rfl, rfl, by decide⟩, ⟨_, rfl, rfl, by decide, by decide, by decide⟩⟩

/-- The clauses about bit 0 of CmdSendsTheByteAsACommand and DatSendsTheByteAsData. -/
theorem witness_written_value :
    0xFC#8 ∈ writesTo 0x27#7 (sendTrace Config.defaultDelays 0x27#7 .command 0xFF#8 true) ∧
    0x01#8 ∈ writesTo 0x27#7 (sendTrace Config.defaultDelays 0x27#7 .data 0x00#8 false) := by decide

/-- ByteTransferFrame, EveryWriteOfATransferGoesToAddr and EveryControlByteCarriesTheBacklightBit: an outcome, an event
with an address and a value, and an address outside the stored one. -/
theorem witness_byte_transfer_outcome :
    (∃ t, exec (transferOp .data 0x41#8) (onBus sixOk) = .next t ∧ (onBus sixOk).sq = .idle) ∧
    (∃ t, exec (transferOp .command 0xFF#8) (onBus [.never]) = .next t ∧ t.sq ≠ .idle) ∧
    (Event.wf 0x27#7 0x49#8).address = some 0x27#7 ∧ (Event.wf 0x27#7 0x49#8).value = some 0x49#8 ∧
    (0x28 : Nat) ≠ (busAddress (onBus sixOk).addr).toNat :=
  ⟨⟨_, rfl, rfl⟩, ⟨_, rfl, by decide⟩, rfl, rfl, by decide⟩

theorem witness_ConstructionGivesTheResetStateOrNoBlock :
    (let p : Params := ⟨0x7F, 1, 4, false⟩; 1 ≤ p.width ∧ 1 ≤ p.maxLines ∧ p.maxLines ≤ 4 ∧ p.address ≤ 0x7F) ∧
    (let p : Params := ⟨0x00, 1, 1, true⟩; 1 ≤ p.width ∧ 1 ≤ p.maxLines ∧ p.maxLines ≤ 4 ∧ p.address ≤ 0x7F) ∧
    (let p : Params := ⟨0x27, 0, 2, true⟩; p.width < 1) ∧ (let p : Params := ⟨0x27, 16, 0, true⟩; p.maxLines < 1) ∧
    (let p : Params := ⟨0x27, 16, 5, true⟩; 4 < p.maxLines) ∧ (let p : Params := ⟨0x80, 16, 2, true⟩; 0x7F < p.address) := by
  decide

theorem witness_ConfigurationErrorNamesTheIllegalParameters :
    construct Config.defaultDelays ⟨0x80, 0, 5, true⟩ = .fault (.configurationError [.width, .maxLines, .address]) ∧
    construct Config.defaultDelays ⟨0x27, 16, 5, true⟩ = .fault (.configurationError [.maxLines]) := ⟨rfl, rfl⟩

theorem witness_StepKeepsTheRecordInvariant : atS1.Inv ∧ ∃ t, step atS1 = .next t := by
  refine ⟨⟨by unfold State.ConfigLegal; decide, by decide, ?_, ?_, ?_⟩, _, rfl⟩
  · intro k
    simp [atS1, Memory.read, portAfter, busAddress, eq_comm]
  · intro e he
    simp only [atS1, List.mem_singleton] at he
    subst he
    exact ⟨rfl, by decide⟩
  · simp [atS1, atStep, onBus, State.withBus, State.reset, State.afterReset, Event.failed]

theorem line_inv_atS1 : atS1.LineInv := by
  intro _
  refine ⟨[], by decide, ?_, ?_⟩
  · intro v hv; simp [writesTo] at hv
  · intro e he; simp [writesTo, fallingEdges] at he

theorem witness_StepKeepsTheLineInvariant : atS1.LineInv ∧ ∃ t, step atS1 = .next t := ⟨line_inv_atS1, _, rfl⟩

theorem witness_LinesAreStableAtFallingEdges :
    atS1.LineInv ∧ atS1.NoFault ∧
    (0x4D#8, 0x49#8) ∈ fallingEdges (writesTo 0x27#7 (sendTrace Config.defaultDelays 0x27#7 .data 0x41#8 true)) :=
  ⟨line_inv_atS1, rfl, by decide⟩

theorem witness_ByteTransferIsTheSequencersRun :
    (onBus sixOk).sq = .idle ∧ (onBus [.err]).sq = .idle ∧ (onBus [.never]).sq = .idle := ⟨rfl, rfl, rfl⟩

theorem witness_LatchedNibblesAreTheOperand :
    sendTrace Config.defaultDelays 0x27#7 .data 0x41#8 true = sendTrace Config.defaultDelays 0x27#7 .data 0x41#8 true := rfl

theorem witness_StrobeKeepsBothMinimumDelays :
    Delays.wf ⟨500, 500⟩ = true ∧ Delays.wf ⟨501, 1000⟩ = true ∧
    (∀ q, (atStep q []).ConfigLegal) ∧
    (atStep .s2 []).sq = .s2 ∧ (atStep .s7 []).sq = .s7 ∧ (atStep .s4 []).sq = .s4 ∧ (atStep .s9 []).sq = .s9 := by
  refine ⟨by decide, by decide, ?_, rfl, rfl, rfl, rfl⟩
  intro q
  unfold State.ConfigLegal
  cases q <;> decide

theorem witness_ByteTransferTakesAtLeastTwoMilliseconds : Delays.wf ⟨500, 500⟩ = true ∧ Delays.wf ⟨700, 900⟩ = true := by
  decide

theorem witness_BuildIsFixedAtConstruction :
    (∃ s, construct ⟨500, 700⟩ ⟨0x7F, 1, 4, false⟩ = .next s) ∧ Delays.wf ⟨500, 700⟩ = true ∧ ∃ t, step atS1 = .next t :=
  ⟨⟨_, rfl⟩, by decide, ⟨_, rfl⟩⟩

theorem witness_BloffClearsTheBacklightBit :
    ∃ t, (onBus sixOk).sq = .idle ∧ (onBus sixOk).bl = true ∧ exec .bloff (onBus sixOk) = .next t ∧ t.BusOk 6 :=
  ⟨_, rfl, rfl, rfl, by unfold State.BusOk; decide⟩

theorem witness_BlonSetsTheBacklightBit :
    ∃ s t : State, s.sq = .idle ∧ s.bl = false ∧ exec .blon s = .next t ∧ t.BusOk 6 :=
  ⟨{ onBus sixOk with bl := false }, _, rfl, rfl, rfl, by unfold State.BusOk; decide⟩

theorem witness_BltglInvertsTheBacklightBit :
    State.reset.sq = .idle ∧ ∃ t, exec .bltgl State.reset = .next t := ⟨rfl, _, rfl⟩

theorem witness_BacklightTakesEffectOnTheNextTransfer :
    (∃ t, (onBus [.ok]).sq = .idle ∧ exec .bltgl (onBus [.ok]) = .next t ∧ t.busAnswer = .ok) ∧
    (∃ t, step (atStep .s0 [.ok]) = .next t ∧ t.mem ≠ (atStep .s0 [.ok]).mem) :=
  ⟨⟨_, rfl, rfl, rfl⟩, ⟨_, rfl, by decide⟩⟩

theorem witness_EveryControlByteCarriesTheBacklightBit :
    atS1.sq ≠ .idle ∧ ∃ t, step atS1 = .next t ∧ t.sq ≠ .idle := ⟨by decide, _, rfl, by decide⟩

theorem witness_TransportErrorEntry :
    (∃ v, (atStep .s0 [.err]).micro = some (.write v) ∧ (atStep .s0 [.err]).busAnswer = .err) ∧
    (∃ v, (atStep .s8 [.err]).micro = some (.write v) ∧ (atStep .s8 [.err]).busAnswer = .err) ∧
    (∃ t, step { State.reset with tf := true } = .next t ∧ ({ State.reset with tf := true } : State).tf = true) ∧
    (∃ t, exec .bltgl { State.reset with tf := false } = .next t) :=
  ⟨⟨_, rfl, rfl⟩, ⟨_, rfl, rfl⟩, ⟨_, rfl, rfl⟩, ⟨_, rfl⟩⟩

/-- The first and last words of both reserved ranges, and one presented. -/
theorem witness_ReservedRequestsAreRefusedWithoutEffect :
    decode 0x203#10 = .reserved .fn ∧ decode 0x2FF#10 = .reserved .immBits ∧ decode 0x300#10 = .reserved .op ∧
    decode 0x3FF#10 = .reserved .op ∧ decode 0x202#10 = .instr .bltgl ∧
    (State.reset.withHost [.request 0x203#10, .wait 1]).sq = .idle ∧
    (State.reset.withHost [.request 0x203#10, .wait 1]).hostScript = .request 0x203#10 :: [.wait 1] := by decide

/-- Every statement whose premise is `step s = .next t` alone: ConfigurationRegistersNeverChange,
TraceOnlyGrowsAndFailureIsLast, WidthAndMaxLinesAreNeverRead, BlockNeverReadsTheBus, EmittedControlBytes; at `Idle` with
an operation presented and inside one. -/
theorem witness_step :
    (∃ t, step ((onBus sixOk).withHost [.request 0x141#10]) = .next t ∧ t.trace ≠ []) ∧ (∃ t, step atS1 = .next t) :=
  ⟨⟨_, rfl, by decide⟩, ⟨_, rfl⟩⟩

/-- EmittedControlBytes: a value with bit 1 clear, and an event's value. -/
theorem witness_EmittedControlBytes : (0xFD#8).getLsbD 1 = false ∧ (Event.w 0x27#7 0x4D#8).value = some 0x4D#8 := by decide

theorem witness_StatusFlags :
    (∃ v, (atStep .s5 [.err]).micro = some (.write v) ∧ (atStep .s5 [.err]).busAnswer = .err) ∧
    (∃ t, step (atStep .s5 [.err]) = .next t ∧ (atStep .s5 [.err]).tf = false ∧ t.tf = true) ∧
    (∃ t, step { atStep .s5 [.ok] with tf := true } = .next t ∧ t.tf = true) :=
  ⟨⟨_, rfl, rfl⟩, ⟨_, rfl, rfl, by decide⟩, ⟨_, rfl, by decide⟩⟩

theorem witness_SequencerFollowsItsTable :
    (∀ q : Sq, (atStep q []).sq = q) ∧
    (∃ v, (atStep .s0 [.ok]).micro = some (.write v) ∧ (atStep .s0 [.ok]).busAnswer = .ok) ∧
    (∃ v, (atStep .s8 [.err]).micro = some (.write v) ∧ (atStep .s8 [.err]).busAnswer = .err) ∧
    (∃ v, (atStep .s3 [.never]).micro = some (.write v) ∧ (atStep .s3 [.never]).busAnswer = .never) ∧
    (∃ d, (atStep .s9 []).micro = some (.delay d)) ∧ (atStep .s9 []).sq ≠ .idle ∧
    (∃ t, exec .bltgl State.reset = .next t) :=
  ⟨fun _ => rfl, ⟨_, rfl, rfl⟩, ⟨_, rfl, rfl⟩, ⟨_, rfl, rfl⟩, ⟨_, rfl⟩, by decide, ⟨_, rfl⟩⟩

theorem witness_LatchesHoldTheOperandsOfTheTransfer :
    (∃ t, (onBus [.never]).sq = .idle ∧ exec (transferOp .data 0x41#8) (onBus [.never]) = .next t ∧ t.sq ≠ .idle) ∧
    (∃ t, atS1.sq ≠ .idle ∧ step atS1 = .next t ∧ t.sq ≠ .idle) ∧
    (∃ v, atS1.micro = some (.write v)) ∧ (∃ t, State.reset.sq = .idle ∧ exec .blon State.reset = .next t) :=
  ⟨⟨_, rfl, rfl, by decide⟩, ⟨_, by decide, rfl, by decide⟩, ⟨_, rfl⟩, ⟨_, rfl, rfl⟩⟩

theorem witness_HostPortAnswersEachOperationOnce :
    atS1.sq ≠ .idle ∧ (∃ t, step atS1 = .next t) ∧
    (∃ t, State.reset.sq = .idle ∧ exec .bloff State.reset = .next t) ∧
    (∃ v, (atStep .s3 [.never]).micro = some (.write v) ∧ (atStep .s3 [.never]).busAnswer = .never) :=
  ⟨by decide, ⟨_, rfl⟩, ⟨_, rfl, rfl⟩, ⟨_, rfl, rfl⟩⟩

theorem witness_AdapterRegisterFollowsTheWrites :
    (∃ v, atS1.micro = some (.write v) ∧ atS1.busAnswer = .ok) ∧
    (∃ s : State, Memory.wf s.mem = true ∧ Memory.read s.mem 0x27 = some 0x49#8 ∧ s.busAnswer = .err ∧
      ∃ v, s.micro = some (.write v)) ∧
    (0x28 : Nat) ≠ (busAddress atS1.addr).toNat :=
  ⟨⟨_, rfl, rfl⟩, ⟨{ atStep .s1 [.err] with mem := [(0x27, 0x49#8)] }, by decide, by decide, rfl, _, rfl⟩, by decide⟩

theorem witness_DecodeOfEncode : (Instr.cmd 0xFF#8).wf = true ∧ (Instr.dat 0x00#8).wf = true ∧ Instr.bltgl.wf = true := by
  decide

theorem witness_EncodeOfDecode :
    decode 0x0FF#10 = .instr (.cmd 0xFF#8) ∧ decode 0x100#10 = .instr (.dat 0x00#8) ∧ decode 0x202#10 = .instr .bltgl := by
  decide

theorem witness_StepRunsTheDecodedOperation :
    (State.reset.withHost [.request 0x201#10]).sq = .idle ∧
    (State.reset.withHost [.request 0x201#10]).hostScript = .request 0x201#10 :: [] ∧
    decode 0x201#10 = .instr .blon ∧ State.reset.sq = .idle ∧ State.reset.hostScript = [] ∧ atS1.sq ≠ .idle := by decide

theorem witness_WaitAppendsOneDelay :
    (State.reset.withHost [.wait 0]).sq = .idle ∧ (State.reset.withHost [.wait 0]).hostScript = .wait 0 :: [] := by decide

/-- INIT's traces hold events with a value. -/
theorem witness_InitSequence : Event.w 0x27#7 0x3C#8 ∈ initTrace Config.defaultDelays 0x27#7 true ∧
    Event.w 0x27#7 0x10#8 ∈ initTrace Config.defaultDelays 0x27#7 false := by decide

theorem witness_InitStopsAtTheFirstFault :
    ((onBus (List.replicate 36 .ok)).sq = .idle ∧ (onBus (List.replicate 36 .ok)).BusOk 36) ∧
    ((onBus [.err]).sq = .idle ∧ (onBus [.err]).BusOk 0 ∧ (onBus [.err]).answerAhead 0 = .err) ∧
    ((onBus (List.replicate 35 .ok ++ [.err])).sq = .idle ∧ (onBus (List.replicate 35 .ok ++ [.err])).BusOk 35 ∧
      (onBus (List.replicate 35 .ok ++ [.err])).answerAhead 35 = .err) := by
  refine ⟨⟨rfl, ?_⟩, ⟨rfl, (bus_ok_then .err).1, rfl⟩, ⟨rfl, ?_, by decide⟩⟩ <;> unfold State.BusOk <;> decide

theorem witness_LineAddresses : ((0 : Int) < 1 ∨ 4 < (0 : Int)) ∧ ((5 : Int) < 1 ∨ 4 < (5 : Int)) := by decide

theorem witness_WrlineSendsExactlyWidthCharacters :
    (∀ c, c ∈ ['H', 'i'] → putcSeq c ≠ none) ∧ (∀ c, c ∈ ([] : List Char) → putcSeq c ≠ none) ∧
    0 < State.reset.width ∧ 15 < State.reset.width := by
  refine ⟨?_, ?_, by decide, by decide⟩
  · intro c hc
    simp only [List.mem_cons, List.not_mem_nil, or_false] at hc
    rcases hc with rfl | rfl <;> decide
  · intro c hc; simp at hc

theorem witness_PutcSendsTheCharactersCode : (Char.ofNat 127).toNat < 128 ∧ 255 < (Char.ofNat 256).toNat := by decide

/-- A script with each kind of entry: a reserved word, a delay, a backlight operation, and two byte transfers. -/
theorem witness_HostScriptRunsToTheConcatenatedTrace :
    let s := (onBus (sixOk ++ sixOk)).withHost
      [.request 0x3FF#10, .request 0x200#10, .request 0x028#10, .wait 500, .request 0x141#10]
    s.sq = .idle ∧ scriptWrites s.hostScript = 12 ∧ s.BusOk (scriptWrites s.hostScript) := by
  refine ⟨rfl, by decide, ?_⟩
  have h : scriptWrites ((onBus (sixOk ++ sixOk)).withHost
      [.request 0x3FF#10, .request 0x200#10, .request 0x028#10, .wait 500, .request 0x141#10]).hostScript = 12 := by decide
  rw [h]
  unfold State.BusOk
  decide

end Sys2Proof.Machine
end

/-! SUPPORT. The proofs of the family 10_state.md: what `step` answers in each case, the configuration and `TF` across
every shared operation, and that `TF` is read by nothing (10_state.md R15, R19). -/

namespace Sys2Proof.Machine

/-! ### What a step answers, case by case -/

theorem sq_ne_idle_of_micro {s : State} {e : Micro} (h : s.micro = some e) : s.sq ≠ .idle := by
  intro hi; simp [State.micro, hi] at h

theorem step_of_busy {s : State} (h : s.sq ≠ .idle) : step s = .next (seqStep s) := by
  simp [step, (busy_iff s).2 h]

theorem step_of_nothing_presented {s : State} (h : s.sq = .idle) (hs : s.hostScript = []) : step s = .next s := by
  simp [step, (busy_eq_false s).2 h, State.nextAction, hs]

theorem step_of_wait {s : State} {d : Nat} {rest : List HostAction} (h : s.sq = .idle)
    (hs : s.hostScript = .wait d :: rest) : step s = .next (hostWait d (popAction s)) := by
  simp [step, (busy_eq_false s).2 h, State.nextAction, hs]

theorem step_of_instr {s : State} {rq : Request} {rest : List HostAction} {i : Instr} (h : s.sq = .idle)
    (hs : s.hostScript = .request rq :: rest) (hd : decode rq = .instr i) :
    step s = .next (afterOp i (popAction s)) := by
  simp [step, (busy_eq_false s).2 h, State.nextAction, hs, hd, exec_eq]

theorem step_of_reserved {s : State} {rq : Request} {rest : List HostAction} {why : Reserved} (h : s.sq = .idle)
    (hs : s.hostScript = .request rq :: rest) (hd : decode rq = .reserved why) :
    step s = .next (raiseIllegalRequest rq (popAction s)) := by
  simp [step, (busy_eq_false s).2 h, State.nextAction, hs, hd]

/-- Everything an operation can do: be ignored by the busy block, transfer a byte, or write `BL`. -/
theorem afterOp_cases (i : Instr) (s : State) :
    afterOp i s = s ∨ (∃ m b, afterOp i s = transfer m b s) ∨ (∃ v, afterOp i s = setBacklight v s) := by
  by_cases h : s.sq = .idle
  · cases i with
    | cmd b => exact .inr (.inl ⟨.command, b, whenIdle_of_idle h _⟩)
    | dat b => exact .inr (.inl ⟨.data, b, whenIdle_of_idle h _⟩)
    | bloff => exact .inr (.inr ⟨false, whenIdle_of_idle h _⟩)
    | blon => exact .inr (.inr ⟨true, whenIdle_of_idle h _⟩)
    | bltgl => exact .inr (.inr ⟨!s.bl, whenIdle_of_idle h _⟩)
  · left; cases i <;> exact whenIdle_of_busy h _

/-! ### The configuration: the registers of 10_state.md R15, and the build's delays -/

/-- What construction fixes: `ADDR`, `WIDTH`, `MAX_LINES` and the delays (70_reset_and_hazards.md R120; log entry 13). -/
def State.config (s : State) : DevAddr × Nat × BitVec 3 × Delays := (s.addr, s.width, s.maxLines, s.delays)

theorem config_eq_iff {s t : State} : t.config = s.config ↔
    t.addr = s.addr ∧ t.width = s.width ∧ t.maxLines = s.maxLines ∧ t.delays = s.delays := by
  simp [State.config]

@[simp] theorem emit_config (e : Event) (s : State) : (emit e s).config = s.config := rfl
@[simp] theorem setBacklight_config (v : Bool) (s : State) : (setBacklight v s).config = s.config := rfl
@[simp] theorem popAction_config (s : State) : (popAction s).config = s.config := rfl
@[simp] theorem hostWait_config (d : Nat) (s : State) : (hostWait d s).config = s.config := rfl
@[simp] theorem completeWrite_config (v : Byte) (s : State) : (completeWrite v s).config = s.config := rfl
@[simp] theorem raiseTransportError_config (v : Byte) (s : State) : (raiseTransportError v s).config = s.config := rfl
@[simp] theorem raiseIllegalRequest_config (rq : Request) (s : State) :
    (raiseIllegalRequest rq s).config = s.config := rfl
@[simp] theorem acceptTransfer_config (m : Mode) (b : Byte) (s : State) : (acceptTransfer m b s).config = s.config := rfl

@[simp] theorem takeAnswer_config (s : State) : (takeAnswer s).config = s.config := by simp [State.config]

@[simp] theorem advance_config (s : State) : (advance s).config = s.config := by unfold advance; split <;> rfl

@[simp] theorem seqStep_config (s : State) : (seqStep s).config = s.config := by
  obtain ⟨-, h⟩ | ⟨v, -, -, h⟩ | ⟨v, -, -, h⟩ | ⟨v, -, -, h⟩ | ⟨d, -, h⟩ := seqStep_cases s <;> simp [h]

@[simp] theorem runSeq_config (n : Nat) (s : State) : (runSeq n s).config = s.config := by
  induction n generalizing s with
  | zero => rfl
  | succ n ih => rw [runSeq, ih, seqStep_config]

@[simp] theorem transfer_config (m : Mode) (b : Byte) (s : State) : (transfer m b s).config = s.config := by
  simp [transfer]

@[simp] theorem afterOp_config (i : Instr) (s : State) : (afterOp i s).config = s.config := by
  obtain h | ⟨m, b, h⟩ | ⟨v, h⟩ := afterOp_cases i s <;> simp [h]

/-- No step writes the configuration. -/
theorem step_config {s t : State} (h : step s = .next t) : t.config = s.config := by
  obtain ⟨-, rfl⟩ | ⟨-, -, rfl⟩ | ⟨d, _, -, -, rfl⟩ | ⟨rq, _, i, -, -, -, rfl⟩ | ⟨rq, _, _, -, -, -, rfl⟩ :=
    step_cases h <;> simp

/-- Settles O28: no step writes the configuration, of which the three registers are a part. -/
theorem configurationRegistersNeverChange : Obligations.ConfigurationRegistersNeverChange := by
  intro s t h
  obtain ⟨haddr, hwidth, hmaxLines, -⟩ := config_eq_iff.1 (step_config h)
  exact ⟨haddr, hwidth, hmaxLines⟩

/-! ### What a step does to `TF` -/

/-- From `s` to `t`, `TF` stayed as it was, or a write to `ADDR` failed, was the last event, and set it
(10_state.md R19; 60_exceptions.md R102). -/
def TfKeptOrSet (s t : State) : Prop :=
  t.tf = s.tf ∨ (t.tf = true ∧ ∃ v, t.trace.getLast? = some (.wf s.addr v))

theorem TfKeptOrSet.sticky {s t : State} (h : TfKeptOrSet s t) (hs : s.tf = true) : t.tf = true := by
  obtain hkept | ⟨hset, -⟩ := h
  · exact hkept.trans hs
  · exact hset

theorem TfKeptOrSet.last_failed {s t : State} (h : TfKeptOrSet s t) (hs : s.tf = false) (ht : t.tf = true) :
    ∃ v, t.trace.getLast? = some (.wf s.addr v) := by
  obtain hkept | ⟨-, hlast⟩ := h
  · simp [hkept, hs] at ht
  · exact hlast

@[simp] theorem advance_tf (s : State) : (advance s).tf = s.tf := by unfold advance; split <;> rfl

theorem seqStep_tf (s : State) : TfKeptOrSet s (seqStep s) := by
  obtain ⟨-, h⟩ | ⟨v, -, -, h⟩ | ⟨v, -, -, h⟩ | ⟨v, -, -, h⟩ | ⟨d, -, h⟩ := seqStep_cases s
  · exact .inl (by rw [h])
  · exact .inl (by simp [h])
  · exact .inr ⟨by simp [h], v, by simp [h]⟩
  · exact .inl (by rw [h])
  · exact .inl (by simp [h])

/-- Of a byte transfer's three outcomes only the failed write sets `TF`. -/
theorem transfer_tf (m : Mode) (b : Byte) (s : State) : TfKeptOrSet s (transfer m b s) := by
  obtain hok | ⟨k, hk, hok, herr | hnever⟩ := busOk_or_first s 6
  · exact .inl (by simp [transfer_done m b s hok])
  · exact .inr ⟨by simp [transfer_err m b s hk hok herr],
      writeValue m b s.bl k, by simp [transfer_err m b s hk hok herr, midState]⟩
  · exact .inl (by simp [transfer_never m b s hk hok hnever, midState])

theorem afterOp_tf (i : Instr) (s : State) : TfKeptOrSet s (afterOp i s) := by
  obtain h | ⟨m, b, h⟩ | ⟨v, h⟩ := afterOp_cases i s <;> rw [h]
  · exact .inl rfl
  · exact transfer_tf m b s
  · exact .inl rfl

/-- Everything a step can do to `TF`. -/
theorem step_tf {s t : State} (h : step s = .next t) : TfKeptOrSet s t := by
  obtain ⟨-, rfl⟩ | ⟨-, -, rfl⟩ | ⟨d, _, -, -, rfl⟩ | ⟨rq, _, i, -, -, -, rfl⟩ | ⟨rq, _, _, -, -, -, rfl⟩ :=
    step_cases h
  · exact seqStep_tf s
  · exact .inl rfl
  · exact .inl rfl
  · exact afterOp_tf i (popAction s)
  · exact .inl rfl

/-- A write that fails sets `TF`, in the same step. -/
theorem step_of_failing_write {s : State} {v : Byte} (h : s.micro = some (.write v)) (ha : s.busAnswer = .err) :
    step s = .next (raiseTransportError v (takeAnswer s)) := by
  rw [step_of_busy (sq_ne_idle_of_micro h), seqStep_err h ha]

/-! ### Nothing reads `TF` -/

/-- The same state with another value of `TF`. -/
def State.withTf (s : State) (f : Bool) : State := { s with tf := f }

/-- Two states that agree on everything but `TF`. -/
def SameButTf (s t : State) : Prop := ∃ f, t = s.withTf f

@[simp] theorem withTf_sq (s : State) (f : Bool) : (s.withTf f).sq = s.sq := rfl

theorem takeAnswer_withTf (s : State) (f : Bool) : takeAnswer (s.withTf f) = (takeAnswer s).withTf f := by
  unfold takeAnswer State.withTf; cases s.busScript <;> rfl

theorem advance_withTf (s : State) (f : Bool) : advance (s.withTf f) = (advance s).withTf f := by
  unfold advance; rw [withTf_sq]; split <;> rfl

theorem seqStep_withTf (s : State) (f : Bool) : SameButTf (seqStep s) (seqStep (s.withTf f)) := by
  obtain ⟨hi, h⟩ | ⟨v, hm, ha, h⟩ | ⟨v, hm, ha, h⟩ | ⟨v, hm, ha, h⟩ | ⟨d, hm, h⟩ := seqStep_cases s <;> rw [h]
  · exact ⟨f, seqStep_idle (s := s.withTf f) hi⟩
  · refine ⟨f, ?_⟩
    rw [seqStep_ok (s := s.withTf f) hm ha, takeAnswer_withTf]
    exact advance_withTf (completeWrite v (takeAnswer s)) f
  · refine ⟨true, ?_⟩
    rw [seqStep_err (s := s.withTf f) hm ha, takeAnswer_withTf]
    rfl
  · exact ⟨f, seqStep_never (s := s.withTf f) hm ha⟩
  · refine ⟨f, ?_⟩
    rw [seqStep_delay (s := s.withTf f) hm]
    exact advance_withTf (emit (.t d) s) f

theorem runSeq_withTf (n : Nat) (s : State) (f : Bool) : SameButTf (runSeq n s) (runSeq n (s.withTf f)) := by
  induction n generalizing s f with
  | zero => exact ⟨f, rfl⟩
  | succ n ih =>
    obtain ⟨g, hg⟩ := seqStep_withTf s f
    rw [runSeq, runSeq, hg]
    exact ih (seqStep s) g

theorem transfer_withTf (m : Mode) (b : Byte) (s : State) (f : Bool) :
    SameButTf (transfer m b s) (transfer m b (s.withTf f)) :=
  runSeq_withTf 10 (acceptTransfer m b s) f

theorem whenIdle_withTf {op : State → State} {s : State} {f : Bool} (h : SameButTf (op s) (op (s.withTf f))) :
    SameButTf (whenIdle op s) (whenIdle op (s.withTf f)) := by
  by_cases hi : s.sq = .idle
  · rwa [whenIdle_of_idle hi, whenIdle_of_idle (s := s.withTf f) hi]
  · rw [whenIdle_of_busy hi, whenIdle_of_busy (s := s.withTf f) hi]
    exact ⟨f, rfl⟩

theorem afterOp_withTf (i : Instr) (s : State) (f : Bool) : SameButTf (afterOp i s) (afterOp i (s.withTf f)) := by
  cases i with
  | cmd b => exact whenIdle_withTf (transfer_withTf .command b s f)
  | dat b => exact whenIdle_withTf (transfer_withTf .data b s f)
  | bloff => exact whenIdle_withTf ⟨f, rfl⟩
  | blon => exact whenIdle_withTf ⟨f, rfl⟩
  | bltgl => exact whenIdle_withTf (op := setBacklight (!s.bl)) ⟨f, rfl⟩

/-- A step from a state with another value of `TF` differs from the step itself in `TF` at most. -/
theorem step_withTf {s t : State} (f : Bool) (h : step s = .next t) :
    ∃ u, step (s.withTf f) = .next u ∧ SameButTf t u := by
  obtain ⟨hb, rfl⟩ | ⟨hi, hs, rfl⟩ | ⟨d, _, hi, hs, rfl⟩ | ⟨rq, _, i, hi, hs, hd, rfl⟩ | ⟨rq, _, _, hi, hs, hd, rfl⟩ :=
    step_cases h
  · exact ⟨_, step_of_busy (s := s.withTf f) hb, seqStep_withTf s f⟩
  · exact ⟨_, step_of_nothing_presented (s := t.withTf f) hi hs, f, rfl⟩
  · exact ⟨_, step_of_wait (s := s.withTf f) hi hs, f, rfl⟩
  · exact ⟨_, step_of_instr (s := s.withTf f) hi hs hd, afterOp_withTf i (popAction s) f⟩
  · exact ⟨_, step_of_reserved (s := s.withTf f) hi hs hd, f, rfl⟩

/-- Settles O29: a failing write is the only step that moves `TF`, and no step's other effects depend on it. -/
theorem statusFlags : Obligations.StatusFlags := by
  refine ⟨busy_iff, ?_, fun s t h => (step_tf h).sticky, fun s t h => (step_tf h).last_failed, ?_, rfl, rfl⟩
  · intro s v hm ha
    exact ⟨_, step_of_failing_write hm ha, raiseTransportError_tf v (takeAnswer s)⟩
  · intro s t f h
    obtain ⟨_, hu, f', rfl⟩ := step_withTf f h
    exact ⟨f', hu⟩

end Sys2Proof.Machine

/-! SUPPORT. The proofs of the family 20_memory.md: no operation of the block reads what the adapters hold (R32). The
block writes those registers, so a run from other contents ends in other contents, and in nothing else. -/

namespace Sys2Proof.Machine

/-- The same state with other contents of the adapters' registers. -/
def State.withMem (s : State) (m : Memory) : State := { s with mem := m }

/-- From other contents of the adapters' registers, `f` answers the same but for those contents (20_memory.md R32). -/
def MemBlind (f : State → State) : Prop := ∀ s m, ∃ m', f (s.withMem m) = (f s).withMem m'

theorem MemBlind.comp {f g : State → State} (hg : MemBlind g) (hf : MemBlind f) : MemBlind (g ∘ f) := by
  intro s m
  obtain ⟨m', h⟩ := hf s m
  rw [Function.comp_apply, Function.comp_apply, h]
  exact hg (f s) m'

/-! ### The shared operations -/

theorem memBlind_id : MemBlind id := fun _ m => ⟨m, rfl⟩
theorem memBlind_emit (e : Event) : MemBlind (emit e) := fun _ m => ⟨m, rfl⟩
theorem memBlind_hostWait (d : Nat) : MemBlind (hostWait d) := fun _ m => ⟨m, rfl⟩
theorem memBlind_popAction : MemBlind popAction := fun _ m => ⟨m, rfl⟩
theorem memBlind_raiseIllegalRequest (rq : Request) : MemBlind (raiseIllegalRequest rq) := fun _ m => ⟨m, rfl⟩
theorem memBlind_acceptTransfer (md : Mode) (b : Byte) : MemBlind (acceptTransfer md b) := fun _ m => ⟨m, rfl⟩
theorem memBlind_setBacklight (v : Bool) : MemBlind (setBacklight v) := fun _ m => ⟨m, rfl⟩
theorem memBlind_toggleBacklight : MemBlind (fun s => setBacklight (!s.bl) s) := fun _ m => ⟨m, rfl⟩

theorem memBlind_completeWrite (v : Byte) : MemBlind (completeWrite v) :=
  fun s m => ⟨Memory.write m (busAddress s.addr).toNat v, rfl⟩

theorem memBlind_raiseTransportError (v : Byte) : MemBlind (raiseTransportError v) :=
  fun s m => ⟨Memory.forget m (busAddress s.addr).toNat, rfl⟩

theorem memBlind_takeAnswer : MemBlind takeAnswer := by
  intro s m
  refine ⟨m, ?_⟩
  unfold takeAnswer State.withMem; cases s.busScript <;> rfl

theorem memBlind_advance : MemBlind advance := by
  intro s m
  refine ⟨m, ?_⟩
  by_cases h : s.sq.succ = .idle
  · rw [advance_last h, advance_last (s := s.withMem m) h]; rfl
  · rw [advance_next h, advance_next (s := s.withMem m) h]; rfl

/-! ### The sequencer and the operations -/

/-- The event of a step and the bus's answer are functions of the other fields, so both states take the same case. -/
theorem memBlind_seqStep : MemBlind seqStep := by
  intro s m
  obtain ⟨hi, h⟩ | ⟨v, hm, ha, h⟩ | ⟨v, hm, ha, h⟩ | ⟨v, hm, ha, h⟩ | ⟨d, hm, h⟩ := seqStep_cases s <;> rw [h]
  · exact ⟨m, seqStep_idle (s := s.withMem m) hi⟩
  · rw [seqStep_ok (s := s.withMem m) hm ha]
    exact (memBlind_advance.comp ((memBlind_completeWrite v).comp memBlind_takeAnswer)) s m
  · rw [seqStep_err (s := s.withMem m) hm ha]
    exact ((memBlind_raiseTransportError v).comp memBlind_takeAnswer) s m
  · exact ⟨m, seqStep_never (s := s.withMem m) hm ha⟩
  · rw [seqStep_delay (s := s.withMem m) hm]
    exact (memBlind_advance.comp (memBlind_emit (.t d))) s m

theorem memBlind_runSeq (n : Nat) : MemBlind (runSeq n) := by
  induction n with
  | zero => exact memBlind_id
  | succ n ih => exact ih.comp memBlind_seqStep

theorem memBlind_transfer (md : Mode) (b : Byte) : MemBlind (transfer md b) :=
  (memBlind_runSeq 10).comp (memBlind_acceptTransfer md b)

theorem MemBlind.whenIdle {op : State → State} (hop : MemBlind op) : MemBlind (whenIdle op) := by
  intro s m
  by_cases hi : s.sq = .idle
  · rw [whenIdle_of_idle hi, whenIdle_of_idle (s := s.withMem m) hi]
    exact hop s m
  · rw [whenIdle_of_busy hi, whenIdle_of_busy (s := s.withMem m) hi]
    exact ⟨m, rfl⟩

theorem memBlind_afterOp (i : Instr) : MemBlind (afterOp i) := by
  cases i with
  | cmd b => exact (memBlind_transfer .command b).whenIdle
  | dat b => exact (memBlind_transfer .data b).whenIdle
  | bloff => exact (memBlind_setBacklight false).whenIdle
  | blon => exact (memBlind_setBacklight true).whenIdle
  | bltgl => exact memBlind_toggleBacklight.whenIdle

/-! ### The step -/

/-- A step applies one function, blind to the adapters' contents, and the same one whatever those contents are. -/
theorem step_withMem {s t : State} (h : step s = .next t) :
    ∃ f, MemBlind f ∧ t = f s ∧ ∀ m, step (s.withMem m) = .next (f (s.withMem m)) := by
  obtain ⟨hb, rfl⟩ | ⟨hi, hs, rfl⟩ | ⟨d, _, hi, hs, rfl⟩ | ⟨rq, _, i, hi, hs, hd, rfl⟩ | ⟨rq, _, _, hi, hs, hd, rfl⟩ :=
    step_cases h
  · exact ⟨seqStep, memBlind_seqStep, rfl, fun m => step_of_busy (s := s.withMem m) hb⟩
  · exact ⟨id, memBlind_id, rfl, fun m => step_of_nothing_presented (s := t.withMem m) hi hs⟩
  · exact ⟨hostWait d ∘ popAction, (memBlind_hostWait d).comp memBlind_popAction, rfl,
      fun m => step_of_wait (s := s.withMem m) hi hs⟩
  · exact ⟨afterOp i ∘ popAction, (memBlind_afterOp i).comp memBlind_popAction, rfl,
      fun m => step_of_instr (s := s.withMem m) hi hs hd⟩
  · exact ⟨raiseIllegalRequest rq ∘ popAction, (memBlind_raiseIllegalRequest rq).comp memBlind_popAction, rfl,
      fun m => step_of_reserved (s := s.withMem m) hi hs hd⟩

/-- Settles O35: from other contents of the adapters' registers the block takes the same step, which is blind to them. -/
theorem blockNeverReadsTheBus : Obligations.BlockNeverReadsTheBus := by
  intro s t m h
  obtain ⟨f, hf, rfl, hstep⟩ := step_withMem h
  obtain ⟨m', hm'⟩ := hf s m
  exact ⟨m', (hstep m).trans (congrArg Host.Outcome.next hm')⟩

end Sys2Proof.Machine

/-! SUPPORT. The proofs of the family 30_encoding.md: which request words are reserved, what presenting one does (R56,
R105), and the nibble assembly (R53). -/

namespace Sys2Proof

/-! ### The fields of a request word as numbers (30_encoding.md R54) -/

theorem opField_eq_iff (rq : Request) (v : BitVec 2) : opField rq = v ↔ rq.toNat / 256 = v.toNat := by
  have hlt := rq.isLt
  rw [← BitVec.toNat_inj, opField, BitVec.extractLsb'_toNat, Nat.shiftRight_eq_div_pow]
  omega

theorem zeroField_eq_iff (rq : Request) (v : BitVec 6) : zeroField rq = v ↔ rq.toNat / 4 % 64 = v.toNat := by
  rw [← BitVec.toNat_inj, zeroField, BitVec.extractLsb'_toNat, Nat.shiftRight_eq_div_pow]

theorem fnField_eq_iff (rq : Request) (v : BitVec 2) : fnField rq = v ↔ rq.toNat % 4 = v.toNat := by
  rw [← BitVec.toNat_inj, fnField, BitVec.extractLsb'_toNat, Nat.shiftRight_zero]

/-! ### The reserved words (30_encoding.md R56) -/

/-- In the backlight group exactly `IMM` 0, 1 and 2 are operations: each branch's conditions bound `IMM`. -/
theorem decodeBacklight_reserved_iff (rq : Request) :
    (∃ why, decodeBacklight rq = .reserved why) ↔ 3 ≤ rq.toNat % 256 := by
  simp only [decodeBacklight, zeroField_eq_iff, fnField_eq_iff, ne_eq, BitVec.reduceToNat]
  split_ifs <;> simp only [Decoded.reserved.injEq, exists_false, exists_eq', true_iff, false_iff] <;> omega

/-- The reserved words are those above 0x202, the word of `BLTGL`: `OP` is 0b10 from 0x200 and 0b11 from 0x300. -/
theorem decode_reserved_iff (rq : Request) : (∃ why, decode rq = .reserved why) ↔ 0x203 ≤ rq.toNat := by
  have hlt := rq.isLt
  simp only [decode, opField_eq_iff, BitVec.reduceToNat]
  split_ifs with hcmd hdat hbl
  · simp only [exists_false, false_iff]; omega
  · simp only [exists_false, false_iff]; omega
  · rw [decodeBacklight_reserved_iff]; omega
  · simp only [Decoded.reserved.injEq, exists_eq', true_iff]; omega

end Sys2Proof

namespace Sys2Proof.Machine

/-- Settles O27: the two ranges together are the words above 0x202, and the step is the model's `raiseIllegalRequest`. -/
theorem reservedRequestsAreRefusedWithoutEffect : Obligations.ReservedRequestsAreRefusedWithoutEffect := by
  refine ⟨fun rq => ?_, fun s rq why rest hi hs hd => ?_⟩
  · have hlt := rq.isLt
    rw [decode_reserved_iff]
    omega
  · rw [step_of_reserved hi hs hd]
    simp [raiseIllegalRequest, reply, popAction, hs]

/-! ### The nibble assembly (30_encoding.md R53) -/

/-- `hi` is the high nibble above four zero bits. -/
theorem hi_eq_append (b : Byte) : hi b = highNibble b ++ 0x0#4 := by
  revert b; decide

/-- `lo` is the low nibble above four zero bits. -/
theorem lo_eq_append (b : Byte) : lo b = lowNibble b ++ 0x0#4 := by
  revert b; decide

theorem highNibble_append_lowNibble (b : Byte) : highNibble b ++ lowNibble b = b :=
  (BitVec.extractLsb'_append_extractLsb'_eq_extractLsb' (Nat.zero_add 4).symm).trans BitVec.extractLsb'_eq_self

theorem append_zero_toNat (n : Nibble) : (n ++ 0x0#4).toNat = n.toNat * 16 := by
  rw [BitVec.toNat_append, BitVec.toNat_zero, Nat.or_zero, Nat.shiftLeft_eq]

theorem append_zero_ushiftRight (n : Nibble) : (n ++ 0x0#4) >>> 4 = 0x0#4 ++ n := by
  revert n; decide

theorem highNibble_toNat (b : Byte) : (highNibble b).toNat = b.toNat / 16 := by
  have hlt := b.isLt
  rw [highNibble, BitVec.extractLsb'_toNat, Nat.shiftRight_eq_div_pow]
  omega

theorem lowNibble_toNat (b : Byte) : (lowNibble b).toNat = b.toNat % 16 := by
  rw [lowNibble, BitVec.extractLsb'_toNat, Nat.shiftRight_zero]

/-- The mask is below 256, so the byte `lo` holds the whole masked number. -/
theorem lo_toNat (b : Byte) : (lo b).toNat = (b.toNat <<< 4) &&& dataMask.toNat := by
  have hlt : (b.toNat <<< 4) &&& dataMask.toNat < 2 ^ 8 := Nat.and_lt_two_pow _ dataMask.isLt
  rw [lo, BitVec.toNat_ofNat, Nat.mod_eq_of_lt hlt]

/-- The two nibbles put together again are the byte. -/
theorem hi_or_lo_ushiftRight (b : Byte) : hi b ||| (lo b >>> 4) = b := by
  calc hi b ||| (lo b >>> 4)
      = (highNibble b ++ 0x0#4) ||| (0x0#4 ++ lowNibble b) := by
        rw [hi_eq_append, lo_eq_append, append_zero_ushiftRight]
    _ = highNibble b ++ lowNibble b := by rw [BitVec.or_append, BitVec.or_zero, BitVec.zero_or]
    _ = b := highNibble_append_lowNibble b

/-- Settles O36: `hi` and `lo` are the two nibbles, each above four zero bits, and the laws are those of an append. -/
theorem nibbleAssembly : Obligations.NibbleAssembly := by
  intro b
  refine ⟨?_, ?_, rfl, lo_toNat b, hi_or_lo_ushiftRight b, ?_, ?_, ?_, ?_⟩
  · rw [hi_eq_append, append_zero_toNat, highNibble_toNat]
  · rw [lo_eq_append, append_zero_toNat, lowNibble_toNat]
  · rw [hi_eq_append, BitVec.extractLsb'_append_eq_right]
  · rw [lo_eq_append, BitVec.extractLsb'_append_eq_right]
  · rw [hi_eq_append, BitVec.extractLsb'_append_eq_left, highNibble]
  · rw [lo_eq_append, BitVec.extractLsb'_append_eq_left, lowNibble]

end Sys2Proof.Machine

/-! SUPPORT. The proofs of the family 40_send.md: what a fault-free byte transfer writes (R72, R73, R74), how long it
takes (R75), and in which three ways it ends (R77). -/

namespace Sys2Proof.Machine

/-! ### The least time (40_send.md R75) -/

/-- Each of the two strobes asks for both delays. -/
theorem totalDelay_sendTrace (dl : Delays) (a : DevAddr) (m : Mode) (b : Byte) (bl : Bool) :
    totalDelay (sendTrace dl a m b bl) = 2 * (dl.pulse + dl.settle) := by
  simp only [sendTrace, strobeTrace, List.cons_append, List.nil_append, totalDelay]
  omega

/-- Settles O20: two delays of each kind, none of them below 500 us. -/
theorem byteTransferTakesAtLeastTwoMilliseconds : Obligations.ByteTransferTakesAtLeastTwoMilliseconds := by
  refine ⟨by decide, fun dl a m b bl hwf => ?_⟩
  obtain ⟨hpulse, hsettle⟩ := dl.wf_iff.1 hwf
  rw [totalDelay_sendTrace]
  omega

/-! ### The composed bytes have the enable bit clear and the nibble on the data lines -/

theorem dataField_ctrl (m : Mode) (n : Nibble) (bl : Bool) : dataField (ctrl m n bl) = n := by
  revert n; cases m <;> cases bl <;> decide

theorem deassertEnable_composeHi (m : Mode) (b : Byte) (bl : Bool) :
    deassertEnable (composeHi m b bl) = composeHi m b bl := by
  rw [← ctrl_highNibble, deassertEnable_ctrl]

theorem deassertEnable_composeLo (m : Mode) (b : Byte) (bl : Bool) :
    deassertEnable (composeLo m b bl) = composeLo m b bl := by
  rw [← ctrl_lowNibble, deassertEnable_ctrl]

/-- The ten events of a byte transfer, with the third write of each strobe written as the first (40_send.md R74). -/
theorem sendTrace_eq (dl : Delays) (a : DevAddr) (m : Mode) (b : Byte) (bl : Bool) :
    sendTrace dl a m b bl =
      [.w a (composeHi m b bl), .w a (assertEnable (composeHi m b bl)), .t dl.pulse, .w a (composeHi m b bl), .t dl.settle,
       .w a (composeLo m b bl), .w a (assertEnable (composeLo m b bl)), .t dl.pulse, .w a (composeLo m b bl),
       .t dl.settle] := by
  simp [sendTrace, strobeTrace, deassertEnable_composeHi, deassertEnable_composeLo]

/-- The six writes of a byte transfer, all of them to its own address. -/
theorem writesTo_sendTrace (dl : Delays) (a : DevAddr) (m : Mode) (b : Byte) (bl : Bool) :
    writesTo a (sendTrace dl a m b bl) =
      [composeHi m b bl, assertEnable (composeHi m b bl), composeHi m b bl,
       composeLo m b bl, assertEnable (composeLo m b bl), composeLo m b bl] := by
  simp [sendTrace_eq, writesTo]

/-- The enable line falls twice, at the third write of either strobe (40_send.md R74, R76). -/
theorem fallingEdges_sendTrace (dl : Delays) (a : DevAddr) (m : Mode) (b : Byte) (bl : Bool) :
    fallingEdges (writesTo a (sendTrace dl a m b bl)) =
      [(assertEnable (composeHi m b bl), composeHi m b bl), (assertEnable (composeLo m b bl), composeLo m b bl)] := by
  simp [writesTo_sendTrace, fallingEdges, ← ctrl_highNibble, ← ctrl_lowNibble, enableField_ctrl,
    enableField_assertEnable]

/-! ### The written values as a nibble over the other lines (40_send.md R72, R73) -/

/-- The mode and the backlight bit of a control byte, its data lines and its enable line low (30_encoding.md R51). -/
def modeAndBacklight (m : Mode) (bl : Bool) : Byte := (modeByte m * rsMask) ||| (bitByte bl * blMask)

/-- The four low lines at the three writes of a strobe: enable low, asserted, low again (40_send.md R71). -/
def strobeLines (m : Mode) (bl : Bool) : List Byte :=
  [modeAndBacklight m bl, modeAndBacklight m bl ||| enMask, modeAndBacklight m bl]

theorem composeHi_eq_or (m : Mode) (b : Byte) (bl : Bool) : composeHi m b bl = hi b ||| modeAndBacklight m bl := by
  rw [composeHi, modeAndBacklight, BitVec.or_comm _ (hi b), BitVec.or_assoc]

theorem composeLo_eq_or (m : Mode) (b : Byte) (bl : Bool) : composeLo m b bl = lo b ||| modeAndBacklight m bl := by
  rw [composeLo, modeAndBacklight, BitVec.or_comm _ (lo b), BitVec.or_assoc]

/-- The operand reaches the data lines alone, and the mode and the backlight the other lines alone. -/
theorem writesTo_sendTrace_eq_map (dl : Delays) (a : DevAddr) (m : Mode) (b : Byte) (bl : Bool) :
    writesTo a (sendTrace dl a m b bl) =
      (strobeLines m bl).map (hi b ||| ·) ++ (strobeLines m bl).map (lo b ||| ·) := by
  simp [writesTo_sendTrace, composeHi_eq_or, composeLo_eq_or, assertEnable, strobeLines, BitVec.or_assoc]

theorem strobeLines_command_on : strobeLines .command true = [0x08#8, 0x0C#8, 0x08#8] := by decide
theorem strobeLines_command_off : strobeLines .command false = [0x00#8, 0x04#8, 0x00#8] := by decide
theorem strobeLines_data_on : strobeLines .data true = [0x09#8, 0x0D#8, 0x09#8] := by decide
theorem strobeLines_data_off : strobeLines .data false = [0x01#8, 0x05#8, 0x01#8] := by decide

/-- The two modes differ in bit 0 of the low lines. -/
theorem strobeLines_data_eq_map (bl : Bool) : strobeLines .data bl = (strobeLines .command bl).map (· ||| 0x01#8) := by
  cases bl <;> decide

/-- The same byte sent by `DAT` and by `CMD` differs in bit 0 of all six writes and in nothing else (40_send.md R73). -/
theorem writesTo_sendTrace_data (dl : Delays) (a : DevAddr) (b : Byte) (bl : Bool) :
    writesTo a (sendTrace dl a .data b bl) = (writesTo a (sendTrace dl a .command b bl)).map (· ||| 0x01#8) := by
  simp [writesTo_sendTrace_eq_map, strobeLines_data_eq_map, Function.comp_def, BitVec.or_assoc]

theorem modeField_ctrl (m : Mode) (n : Nibble) (bl : Bool) : modeField (ctrl m n bl) = m := by
  revert n; cases m <;> cases bl <;> decide

theorem modeField_assertEnable (v : Byte) : modeField (assertEnable v) = modeField v := by
  simp [modeField, assertEnable, enMask]

/-- Every written value carries the mode of the transfer. -/
theorem modeField_of_mem_writesTo {dl : Delays} {a : DevAddr} {m : Mode} {b : Byte} {bl : Bool} {v : Byte}
    (h : v ∈ writesTo a (sendTrace dl a m b bl)) : modeField v = m := by
  have hhi : modeField (composeHi m b bl) = m := by rw [← ctrl_highNibble, modeField_ctrl]
  have hlo : modeField (composeLo m b bl) = m := by rw [← ctrl_lowNibble, modeField_ctrl]
  simp only [writesTo_sendTrace, List.mem_cons, List.not_mem_nil, or_false] at h
  rcases h with rfl | rfl | rfl | rfl | rfl | rfl <;> simp only [modeField_assertEnable, hhi, hlo]

theorem modeField_eq_data_iff (v : Byte) : modeField v = .data ↔ v.getLsbD 0 = true := by
  simp [modeField]

theorem modeField_eq_command_iff (v : Byte) : modeField v = .command ↔ v.getLsbD 0 = false := by
  simp [modeField]

/-! ### The outcomes of a byte transfer accepted at `Idle` -/

theorem exec_transferOp_of_idle (m : Mode) (b : Byte) {s : State} (h : s.sq = .idle) :
    exec (transferOp m b) s = .next (transfer m b s) := by
  rw [exec_eq]
  cases m with
  | command => exact congrArg _ (whenIdle_of_idle h _)
  | data => exact congrArg _ (whenIdle_of_idle h _)

theorem eq_transfer_of_exec {m : Mode} {b : Byte} {s t : State} (hidle : s.sq = .idle)
    (hexec : exec (transferOp m b) s = .next t) : t = transfer m b s :=
  (Host.Outcome.next.inj ((exec_transferOp_of_idle m b hidle).symm.trans hexec)).symm

/-- The registers that `CMD` and `DAT` keep, whatever the bus does (40_send.md R72, R73). -/
theorem transfer_registers (m : Mode) (b : Byte) (s : State) :
    (transfer m b s).addr = s.addr ∧ (transfer m b s).width = s.width ∧
      (transfer m b s).maxLines = s.maxLines ∧ (transfer m b s).bl = s.bl := by
  obtain ⟨haddr, hwidth, hmaxLines, -⟩ := config_eq_iff.1 (transfer_config m b s)
  refine ⟨haddr, hwidth, hmaxLines, ?_⟩
  obtain hok | ⟨k, hk, hok, herr | hnever⟩ := busOk_or_first s 6
  · simp [transfer_done m b s hok]
  · simp [transfer_err m b s hk hok herr, midState]
  · simp [transfer_never m b s hk hok hnever, midState]

section Done
variable (m : Mode) (b : Byte) {s : State} (hok : s.BusOk 6)
include hok

theorem transfer_done_trace : (transfer m b s).trace = s.trace ++ sendTrace s.delays s.addr m b s.bl := by
  simp [transfer_done m b s hok]

theorem transfer_done_tf : (transfer m b s).tf = s.tf := by simp [transfer_done m b s hok]

theorem transfer_done_sq : (transfer m b s).sq = .idle := by simp [transfer_done m b s hok]

theorem transfer_done_answers : (transfer m b s).answers = s.answers ++ [.done] := by simp [transfer_done m b s hok]

end Done

/-- The events before the step of the k-th write are those before the k-th write. -/
theorem index_writeStep {k : Nat} (hk : k < 6) : (writeStep k).index = eventOf k := by
  interval_cases k <;> rfl

/-- At the step of the k-th write the fault-free trace has that write, with the k-th value. -/
theorem sendTrace_getElem?_writeStep (dl : Delays) (a : DevAddr) (m : Mode) (b : Byte) (bl : Bool) {k : Nat} (hk : k < 6) :
    (sendTrace dl a m b bl)[(writeStep k).index]? = some (.w a (writeValue m b bl k)) := by
  interval_cases k <;> rfl

section Err
variable (m : Mode) (b : Byte) {s : State} {k : Nat} (hk : k < 6) (hok : s.BusOk k) (herr : s.answerAhead k = .err)
include hk hok herr

theorem transfer_err_trace : (transfer m b s).trace =
    s.trace ++ (sendTrace s.delays s.addr m b s.bl).take (writeStep k).index ++ [.wf s.addr (writeValue m b s.bl k)] := by
  simp [transfer_err m b s hk hok herr, midState, index_writeStep hk]

theorem transfer_err_sq : (transfer m b s).sq = .idle := by simp [transfer_err m b s hk hok herr]

theorem transfer_err_tf : (transfer m b s).tf = true := by simp [transfer_err m b s hk hok herr]

theorem transfer_err_answers :
    (transfer m b s).answers = s.answers ++ [.fault .transportError (writeStep k) none] := by
  simp [transfer_err m b s hk hok herr, midState, stepAt_eventOf hk]

end Err

section Never
variable (m : Mode) (b : Byte) {s : State} {k : Nat} (hk : k < 6) (hok : s.BusOk k) (hnever : s.answerAhead k = .never)
include hk hok hnever

theorem transfer_never_tf : (transfer m b s).tf = s.tf := by simp [transfer_never m b s hk hok hnever, midState]

theorem transfer_never_answers : (transfer m b s).answers = s.answers := by
  simp [transfer_never m b s hk hok hnever, midState]

end Never

/-- `TF` goes up only with a write that fails after writes that succeeded. -/
theorem exists_failing_write_of_transfer_tf {m : Mode} {b : Byte} {s : State} (h0 : s.tf = false)
    (h1 : (transfer m b s).tf = true) : ∃ k, k < 6 ∧ s.BusOk k ∧ s.answerAhead k = .err := by
  obtain hok | ⟨k, hk, hok, herr | hnever⟩ := busOk_or_first s 6
  · rw [transfer_done_tf m b hok, h0] at h1; contradiction
  · exact ⟨k, hk, hok, herr⟩
  · rw [transfer_never_tf m b hk hok hnever, h0] at h1; contradiction

/-- A fault that a byte transfer adds to the answers is a `TransportError` at one of the six write steps. -/
theorem transfer_new_fault {m : Mode} {b : Byte} {s : State} {cause : Cause} {q : Sq} {word : Option Request}
    (hnew : Answer.fault cause q word ∈ (transfer m b s).answers) (hold : Answer.fault cause q word ∉ s.answers) :
    cause = .transportError ∧ ∃ k, k < 6 ∧ q = writeStep k := by
  obtain hok | ⟨k, hk, hok, herr | hnever⟩ := busOk_or_first s 6
  · simp [transfer_done_answers m b hok, hold] at hnew
  · simp only [transfer_err_answers m b hk hok herr, List.mem_append, hold, false_or, List.mem_singleton] at hnew
    injection hnew with hcause hq
    exact ⟨hcause, k, hk, hq⟩
  · rw [transfer_never_answers m b hk hok hnever] at hnew
    exact absurd hnew hold

/-! ### The statements -/

/-- Settles O12: the ten events written out, and the two nibbles on the data lines at the falling edges. -/
theorem byteTransferIsSixWritesAndFourDelays : Obligations.ByteTransferIsSixWritesAndFourDelays := by
  intro m b s hidle hok
  refine ⟨transfer m b s, _, _, exec_transferOp_of_idle m b hidle, rfl, rfl, ?_⟩
  rw [transfer_done_trace m b hok, List.drop_left]
  refine ⟨congrArg _ (sendTrace_eq ..), rfl, rfl, ?_⟩
  rw [fallingEdges_sendTrace, ← ctrl_highNibble, ← ctrl_lowNibble]
  simp only [List.map_cons, List.map_nil, dataField_ctrl]

/-- Settles O13: the failed write cuts the trace, and of the three outcomes only it answers a fault. -/
theorem byteTransferFailsOnlyAtAWrite : Obligations.ByteTransferFailsOnlyAtAWrite := by
  constructor
  · intro m b s k hidle hk hok herr
    exact ⟨_, exec_transferOp_of_idle m b hidle, sendTrace_getElem?_writeStep _ _ _ _ _ hk,
      transfer_err_trace m b hk hok herr, transfer_err_sq m b hk hok herr, transfer_err_tf m b hk hok herr,
      transfer_err_answers m b hk hok herr⟩
  · intro m b s t hidle hexec cause q word hnew hold
    obtain rfl := eq_transfer_of_exec hidle hexec
    exact transfer_new_fault hnew hold

/-- The fault-free clause of 40_send.md R72 and R73. -/
theorem exec_transferOp_done (m : Mode) (b : Byte) (s : State) (hidle : s.sq = .idle) (hok : s.BusOk 6) :
    ∃ t, exec (transferOp m b) s = .next t ∧ t.trace = s.trace ++ sendTrace s.delays s.addr m b s.bl ∧
      t.addr = s.addr ∧ t.width = s.width ∧ t.maxLines = s.maxLines ∧ t.bl = s.bl ∧ t.tf = s.tf ∧ t.sq = .idle := by
  obtain ⟨haddr, hwidth, hmaxLines, hbl⟩ := transfer_registers m b s
  exact ⟨_, exec_transferOp_of_idle m b hidle, transfer_done_trace m b hok, haddr, hwidth, hmaxLines, hbl,
    transfer_done_tf m b hok, transfer_done_sq m b hok⟩

/-- The exception clause of 40_send.md R72 and R73. -/
theorem exec_transferOp_err (m : Mode) (b : Byte) (s : State) (k : Nat) (hidle : s.sq = .idle) (hk : k < 6)
    (hok : s.BusOk k) (herr : s.answerAhead k = .err) :
    ∃ t, exec (transferOp m b) s = .next t ∧ t.answers = s.answers ++ [.fault .transportError (writeStep k) none] ∧
      t.addr = s.addr ∧ t.width = s.width ∧ t.maxLines = s.maxLines ∧ t.bl = s.bl ∧ t.tf = true := by
  obtain ⟨haddr, hwidth, hmaxLines, hbl⟩ := transfer_registers m b s
  exact ⟨_, exec_transferOp_of_idle m b hidle, transfer_err_answers m b hk hok herr, haddr, hwidth, hmaxLines, hbl,
    transfer_err_tf m b hk hok herr⟩

/-- The flag clause of 40_send.md R72 and R73. -/
theorem exists_failing_write_of_exec_tf (m : Mode) (b : Byte) (s t : State) (hidle : s.sq = .idle)
    (hexec : exec (transferOp m b) s = .next t) (h0 : s.tf = false) (h1 : t.tf = true) :
    ∃ k, k < 6 ∧ s.BusOk k ∧ s.answerAhead k = .err := by
  obtain rfl := eq_transfer_of_exec hidle hexec
  exact exists_failing_write_of_transfer_tf h0 h1

/-- With both nibbles equal the two strobes are the same (the corner case 0x33 of 40_send.md R72). -/
theorem sendTrace_of_equal_nibbles {b : Byte} (h : lo b = hi b) (dl : Delays) (a : DevAddr) (m : Mode) (bl : Bool) :
    sendTrace dl a m b bl = strobeTrace dl a (composeHi m b bl) ++ strobeTrace dl a (composeHi m b bl) := by
  rw [sendTrace, composeLo, h, ← composeHi]

/-- Settles O8: the outcomes are those of any byte transfer, and the six values the nibbles over `CMD`'s low lines. -/
theorem cmdSendsTheByteAsACommand : Obligations.CmdSendsTheByteAsACommand := by
  refine ⟨fun _ => rfl, exec_transferOp_done .command, fun b dl a => ?on, fun b dl a => ?off,
    fun b dl a bl v hv => (modeField_eq_command_iff v).1 (modeField_of_mem_writesTo hv), exec_transferOp_err .command,
    exists_failing_write_of_exec_tf .command, fun dl a => ?zero, fun dl a => ?ones,
    fun dl a bl => sendTrace_of_equal_nibbles (by decide) dl a .command bl, by decide⟩
  case on => simp [writesTo_sendTrace_eq_map, strobeLines_command_on]
  case off => simp [writesTo_sendTrace_eq_map, strobeLines_command_off]
  case zero => rw [writesTo_sendTrace]; decide
  case ones => rw [writesTo_sendTrace]; decide

/-- Settles O9: the outcomes are those of any byte transfer, and the six values the nibbles over `DAT`'s low lines. -/
theorem datSendsTheByteAsData : Obligations.DatSendsTheByteAsData := by
  refine ⟨fun _ => rfl, exec_transferOp_done .data, fun b dl a => ?on, fun b dl a => ?off,
    fun b dl a bl v hv => (modeField_eq_data_iff v).1 (modeField_of_mem_writesTo hv), exec_transferOp_err .data,
    exists_failing_write_of_exec_tf .data, fun dl a => ?zero, fun dl a => ?ones,
    fun b dl a bl => writesTo_sendTrace_data dl a b bl, by decide⟩
  case on => simp [writesTo_sendTrace_eq_map, strobeLines_data_on]
  case off => simp [writesTo_sendTrace_eq_map, strobeLines_data_off]
  case zero => rw [writesTo_sendTrace]; decide
  case ones => rw [writesTo_sendTrace]; decide

end Sys2Proof.Machine

/-! SUPPORT. The proofs of the family 41_backlight.md: what the backlight operations answer (R80, R81, R82), when the new
bit reaches the bus (R83), and that every written value carries the latched one (R84). -/

namespace Sys2Proof

/-! ### A request word that decodes is the word of its operation (30_encoding.md R54, R55) -/

theorem opField_append_immField (rq : Request) : opField rq ++ immField rq = rq :=
  (BitVec.extractLsb'_append_extractLsb'_eq_extractLsb' (Nat.zero_add 8).symm).trans BitVec.extractLsb'_eq_self

/-- The three fields of the word are fixed, and with them the word. -/
theorem encode_of_decodeBacklight {rq : Request} {i : Instr} (hop : opField rq = 0b10#2)
    (h : decodeBacklight rq = .instr i) : encode i = rq := by
  simp only [decodeBacklight, zeroField_eq_iff, fnField_eq_iff, ne_eq, BitVec.reduceToNat] at h
  simp only [opField_eq_iff, BitVec.reduceToNat] at hop
  split_ifs at h <;> cases h
  all_goals
    apply BitVec.eq_of_toNat_eq
    simp only [encode, BitVec.reduceAppend, BitVec.reduceToNat]
    omega

theorem encode_of_decode {rq : Request} {i : Instr} (h : decode rq = .instr i) : encode i = rq := by
  unfold decode at h
  split_ifs at h with hcmd hdat hbl
  · cases h; rw [encode, ← hcmd, opField_append_immField]
  · cases h; rw [encode, ← hdat, opField_append_immField]
  · exact encode_of_decodeBacklight hbl h

end Sys2Proof

namespace Sys2Proof.Machine

/-! ### The backlight operations, accepted at `Idle` -/

theorem exec_bloff_of_idle {s : State} (h : s.sq = .idle) : exec .bloff s = .next (setBacklight false s) :=
  (exec_eq _ s).trans (congrArg _ (whenIdle_of_idle h _))

theorem exec_blon_of_idle {s : State} (h : s.sq = .idle) : exec .blon s = .next (setBacklight true s) :=
  (exec_eq _ s).trans (congrArg _ (whenIdle_of_idle h _))

theorem exec_bltgl_of_idle {s : State} (h : s.sq = .idle) : exec .bltgl s = .next (setBacklight (!s.bl) s) :=
  (exec_eq _ s).trans (congrArg _ (whenIdle_of_idle h _))

/-- A backlight operation writes `BL` alone, and the value it writes depends on `BL` alone (41_backlight.md R83). -/
theorem exec_backlight_of_idle {i : Instr} (hi : i = .bloff ∨ i = .blon ∨ i = .bltgl) :
    ∃ f : Bool → Bool, ∀ s : State, s.sq = .idle → exec i s = .next (setBacklight (f s.bl) s) := by
  obtain rfl | rfl | rfl := hi
  · exact ⟨fun _ => false, fun _ => exec_bloff_of_idle⟩
  · exact ⟨fun _ => true, fun _ => exec_blon_of_idle⟩
  · exact ⟨not, fun _ => exec_bltgl_of_idle⟩

/-- A `CMD` right after `BL` was written adds to the trace the six values with the new bit, and no other write. -/
theorem exec_cmd_after_setBacklight {s : State} {v : Bool} (b : Byte) (hidle : s.sq = .idle)
    (hok : (setBacklight v s).BusOk 6) :
    ∃ u, exec (.cmd b) (setBacklight v s) = .next u ∧
      writesTo s.addr (u.trace.drop s.trace.length) =
        (strobeLines .command v).map (hi b ||| ·) ++ (strobeLines .command v).map (lo b ||| ·) := by
  refine ⟨_, exec_transferOp_of_idle .command b hidle, ?_⟩
  rw [transfer_done_trace .command b hok, setBacklight_trace, List.drop_left]
  exact writesTo_sendTrace_eq_map ..

/-- Settles O21: the next state is `setBacklight false`, and the example is `CMD` over the low lines with bit 3 clear. -/
theorem bloffClearsTheBacklightBit : Obligations.BloffClearsTheBacklightBit := by
  refine ⟨by decide, fun s hidle => exec_bloff_of_idle hidle, fun s t hidle _ hexec hok => ?_⟩
  obtain rfl := Host.Outcome.next.inj ((exec_bloff_of_idle hidle).symm.trans hexec)
  obtain ⟨u, hu, hwrites⟩ := exec_cmd_after_setBacklight 0x01#8 hidle hok
  exact ⟨u, hu, hwrites.trans (by decide)⟩

/-- Settles O22: the next state is `setBacklight true`, and the example is `CMD` over the low lines with bit 3 set. -/
theorem blonSetsTheBacklightBit : Obligations.BlonSetsTheBacklightBit := by
  refine ⟨by decide, fun s hidle => exec_blon_of_idle hidle, fun s t hidle _ hexec hok => ?_⟩
  obtain rfl := Host.Outcome.next.inj ((exec_blon_of_idle hidle).symm.trans hexec)
  obtain ⟨u, hu, hwrites⟩ := exec_cmd_after_setBacklight 0x01#8 hidle hok
  exact ⟨u, hu, hwrites.trans (by decide)⟩

/-- Settles O23: the next state is `setBacklight` of the inverted bit, and inverting twice gives the bit back. -/
theorem bltglInvertsTheBacklightBit : Obligations.BltglInvertsTheBacklightBit := by
  refine ⟨by decide, fun s hidle => exec_bltgl_of_idle hidle, fun s t hidle hexec => ?_⟩
  obtain rfl := Host.Outcome.next.inj ((exec_bltgl_of_idle hidle).symm.trans hexec)
  exact ⟨_, exec_bltgl_of_idle hidle, Bool.not_not s.bl, rfl⟩

/-! ### The backlight bit of a control byte (30_encoding.md R51) -/

theorem backlightField_ctrl (m : Mode) (n : Nibble) (bl : Bool) : backlightField (ctrl m n bl) = bl := by
  revert n; cases m <;> cases bl <;> decide

theorem backlightField_assertEnable (v : Byte) : backlightField (assertEnable v) = backlightField v := by
  simp [backlightField, assertEnable, enMask]

theorem backlightField_deassertEnable (v : Byte) : backlightField (deassertEnable v) = backlightField v := by
  simp [backlightField, deassertEnable, enMask]

/-- Every value the sequencer writes carries `OPL` (10_state.md R17, R18). -/
theorem backlightField_of_micro {s : State} {v : Byte} (h : s.micro = some (.write v)) : backlightField v = s.opl := by
  have hhi : backlightField s.latchedHi = s.opl := backlightField_ctrl ..
  have hlo : backlightField s.latchedLo = s.opl := backlightField_ctrl ..
  unfold State.micro at h
  split at h <;> cases h <;> simp only [backlightField_assertEnable, backlightField_deassertEnable, hhi, hlo]

/-! ### What the sequencer writes carries the latched bit (41_backlight.md R84) -/

/-- The written values among the events, failed writes too, carry the backlight bit `l`. -/
def CarryBacklight (l : Bool) (es : List Event) : Prop := ∀ e, e ∈ es → ∀ v, e.value = some v → backlightField v = l

theorem carryBacklight_nil (l : Bool) : CarryBacklight l [] := fun _ he => absurd he List.not_mem_nil

theorem carryBacklight_singleton {l : Bool} {e : Event} (h : ∀ v, e.value = some v → backlightField v = l) :
    CarryBacklight l [e] := by
  intro e' he'
  rwa [List.mem_singleton.1 he']

theorem CarryBacklight.append {l : Bool} {es es' : List Event} (h : CarryBacklight l es) (h' : CarryBacklight l es') :
    CarryBacklight l (es ++ es') :=
  fun e he => (List.mem_append.1 he).elim (h e) (h' e)

/-- Unless the block is idle, `OPL` holds `l`. -/
def State.Latched (l : Bool) (s : State) : Prop := s.sq ≠ .idle → s.opl = l

/-- From `s` to `t` the trace grew by events that carry `l`, and `OPL` holds `l` while the operation goes on. -/
def WritesWith (l : Bool) (s t : State) : Prop := (∃ new, t.trace = s.trace ++ new ∧ CarryBacklight l new) ∧ t.Latched l

theorem WritesWith.trans {l : Bool} {s t u : State} (h : WritesWith l s t) (h' : WritesWith l t u) :
    WritesWith l s u := by
  obtain ⟨⟨new, hnew, hcarry⟩, -⟩ := h
  obtain ⟨⟨new', hnew', hcarry'⟩, hlatched⟩ := h'
  exact ⟨⟨new ++ new', by rw [hnew', hnew, List.append_assoc], hcarry.append hcarry'⟩, hlatched⟩

theorem State.Latched.refl {l : Bool} {s : State} (h : s.Latched l) : WritesWith l s s :=
  ⟨⟨[], (List.append_nil _).symm, carryBacklight_nil l⟩, h⟩

@[simp] theorem advance_trace (s : State) : (advance s).trace = s.trace := by unfold advance; split <;> rfl

/-- Going on keeps the latch; going back to `Idle` ends its meaning. -/
theorem advance_latched (s : State) : (advance s).Latched s.opl := by
  unfold State.Latched
  by_cases h : s.sq.succ = .idle
  · intro hne; exact absurd (by simp [advance_last h]) hne
  · intro _; rw [advance_next h]

/-- A step appends at most one event; a written value is composed from `OPL`. -/
theorem seqStep_writesWith {l : Bool} {s : State} (hl : s.Latched l) : WritesWith l s (seqStep s) := by
  have hopl {e : Micro} (hm : s.micro = some e) : s.opl = l := hl (sq_ne_idle_of_micro hm)
  have hcarry {v : Byte} (hm : s.micro = some (.write v)) : backlightField v = l :=
    (backlightField_of_micro hm).trans (hopl hm)
  obtain ⟨-, h⟩ | ⟨v, hm, -, h⟩ | ⟨v, hm, -, h⟩ | ⟨v, -, -, h⟩ | ⟨d, hm, h⟩ := seqStep_cases s <;> rw [h]
  · exact hl.refl
  · refine ⟨⟨[.w s.addr v], by simp, carryBacklight_singleton ?_⟩, ?_⟩
    · rintro _ ⟨⟩; exact hcarry hm
    · simpa [hopl hm] using advance_latched (completeWrite v (takeAnswer s))
  · refine ⟨⟨[.wf s.addr v], by simp, carryBacklight_singleton ?_⟩, fun hne => absurd rfl hne⟩
    rintro _ ⟨⟩; exact hcarry hm
  · exact hl.refl
  · refine ⟨⟨[.t d], by simp [emit], carryBacklight_singleton nofun⟩, ?_⟩
    exact hopl hm ▸ advance_latched (emit (.t d) s)

theorem runSeq_writesWith {l : Bool} (n : Nat) {s : State} (hl : s.Latched l) : WritesWith l s (runSeq n s) := by
  induction n generalizing s with
  | zero => exact hl.refl
  | succ n ih =>
    have hstep := seqStep_writesWith hl
    exact hstep.trans (ih hstep.2)

/-- A transfer latches `BL` when it is accepted. -/
theorem transfer_writesWith (m : Mode) (b : Byte) (s : State) : WritesWith s.bl s (transfer m b s) :=
  runSeq_writesWith 10 (s := acceptTransfer m b s) fun _ => rfl

/-- Settles O25: a transfer latches `BL` in `OPL`, and the sequencer keeps that latch and writes values that carry it. -/
theorem everyControlByteCarriesTheBacklightBit : Obligations.EveryControlByteCarriesTheBacklightBit := by
  constructor
  · intro m b s t hidle hexec
    obtain rfl := eq_transfer_of_exec hidle hexec
    exact transfer_writesWith m b s
  · intro s t hbusy hstep
    obtain rfl := Host.Outcome.next.inj ((step_of_busy hbusy).symm.trans hstep)
    exact seqStep_writesWith fun _ => rfl

/-! ### When the new bit reaches the adapter (41_backlight.md R83) -/

/-- A byte transfer whose first write succeeds adds that write first, whatever the bus does with the other five. -/
theorem transfer_trace_of_first_write_ok (m : Mode) (b : Byte) {s : State} (hans : s.busAnswer = .ok) :
    ∃ rest, (transfer m b s).trace = s.trace ++ .w s.addr (composeHi m b s.bl) :: rest := by
  have hok : s.BusOk 1 := fun i hi => by rwa [Nat.lt_one_iff.1 hi]
  have hlatched : (midState m b s 1).Latched s.bl := fun _ => rfl
  obtain ⟨⟨rest, hrest, -⟩, -⟩ := runSeq_writesWith 9 hlatched
  refine ⟨rest, ?_⟩
  rw [transfer_from m b s (j := 1) (by omega) hok, hrest]
  exact List.append_assoc ..

/-- Of the operations only byte transfers change an adapter's register. -/
theorem eq_transferOp_of_afterOp_mem_ne {i : Instr} {s : State} (h : (afterOp i s).mem ≠ s.mem) :
    ∃ m b, i = transferOp m b := by
  have hkept (v : Bool) : (whenIdle (setBacklight v) s).mem = s.mem := by unfold whenIdle; split <;> rfl
  cases i with
  | cmd b => exact ⟨.command, b, rfl⟩
  | dat b => exact ⟨.data, b, rfl⟩
  | bloff => exact absurd (hkept false) h
  | blon => exact absurd (hkept true) h
  | bltgl => exact absurd (hkept (!s.bl)) h

/-- A step that changes an adapter's register is a step of a byte transfer (41_backlight.md R83). -/
theorem step_mem_ne {s t : State} (hstep : step s = .next t) (hmem : t.mem ≠ s.mem) :
    s.sq ≠ .idle ∨ ∃ m b rest, s.hostScript = .request (encode (transferOp m b)) :: rest := by
  obtain ⟨hb, -⟩ | ⟨-, -, rfl⟩ | ⟨d, _, -, -, rfl⟩ | ⟨rq, rest, i, -, hs, hd, rfl⟩ | ⟨rq, _, _, -, -, -, rfl⟩ :=
    step_cases hstep
  · exact .inl hb
  · exact absurd rfl hmem
  · exact absurd rfl hmem
  · obtain ⟨m, b, rfl⟩ := eq_transferOp_of_afterOp_mem_ne hmem
    exact .inr ⟨m, b, rest, by rw [hs, encode_of_decode hd]⟩
  · exact absurd rfl hmem

/-- Settles O24: the operations write `BL` alone, and the next transfer composes its first value from it. -/
theorem backlightTakesEffectOnTheNextTransfer : Obligations.BacklightTakesEffectOnTheNextTransfer := by
  refine ⟨fun i hi s hidle => ?_, fun s t => step_mem_ne⟩
  obtain ⟨f, hf⟩ := exec_backlight_of_idle hi
  refine ⟨_, hf s hidle, hidle, (busy_eq_false _).2 hidle, rfl, rfl, rfl, rfl, fun tf => hf (s.withTf tf) hidle, ?_⟩
  intro m b hans
  obtain ⟨rest, hrest⟩ := transfer_trace_of_first_write_ok m b hans
  refine ⟨_, _, rest, exec_transferOp_of_idle m b hidle, hrest, ?_⟩
  rw [← ctrl_highNibble, backlightField_ctrl]

end Sys2Proof.Machine

/-! SUPPORT. The proofs of the family 42_host_sequences.md: the host's own delay (R96), the line addresses (R91), and what
`WRLINE` presents (R93, R94). -/

namespace Sys2Proof

/-! ### A request word decodes to the operation it was made from (30_encoding.md R54, R55) -/

theorem opField_append (op : BitVec 2) (b : Byte) : opField (op ++ b) = op := BitVec.extractLsb'_append_eq_left

theorem immField_append (op : BitVec 2) (b : Byte) : immField (op ++ b) = b := BitVec.extractLsb'_append_eq_right

theorem decode_encode (i : Instr) : decode (encode i) = .instr i := by
  cases i with
  | cmd b => simp [decode, encode, opField_append, immField_append]
  | dat b => simp [decode, encode, opField_append, immField_append]
  | bloff => decide
  | blon => decide
  | bltgl => decide

end Sys2Proof

namespace Sys2Proof.Machine

/-! ### The host's own delay (42_host_sequences.md R96) -/

/-- Settles O46: an idle step with a delay next is the model's `hostWait`. -/
theorem waitAppendsOneDelay : Obligations.WaitAppendsOneDelay := by
  intro s d rest hidle hs
  rw [step_of_wait hidle hs]
  simp [hostWait, emit, popAction, hs]

/-! ### The line addresses (42_host_sequences.md R91) -/

theorem lineAddress_of_no_line {n : Int} (h : n < 1 ∨ 4 < n) : lineAddress n = .addressLine1 := by
  have h2 : n ≠ 2 := by omega
  have h3 : n ≠ 3 := by omega
  have h4 : n ≠ 4 := by omega
  rw [lineAddress, if_neg h2, if_neg h3, if_neg h4]

/-- Settles O49: each of the four lines has its own command, and every other index falls through to line 1's. -/
theorem lineAddresses : Obligations.LineAddresses := by
  refine ⟨rfl, rfl, rfl, rfl, fun n hn => ?_⟩
  rw [lineSeq, lineAddress_of_no_line hn]
  rfl

/-! ### Counting the events of a script of byte transfers (40_send.md R74) -/

theorem countWrites_append (es es' : List Event) : countWrites (es ++ es') = countWrites es + countWrites es' := by
  induction es with
  | nil => simp [countWrites]
  | cons e es ih => cases e <;> simp [countWrites, ih, Nat.add_right_comm]

theorem countDelays_append (es es' : List Event) : countDelays (es ++ es') = countDelays es + countDelays es' := by
  induction es with
  | nil => simp [countDelays]
  | cons e es ih => cases e <;> simp [countDelays, ih, Nat.add_right_comm]

theorem countWrites_sendTrace (dl : Delays) (a : DevAddr) (m : Mode) (b : Byte) (bl : Bool) :
    countWrites (sendTrace dl a m b bl) = 6 := rfl

theorem countDelays_sendTrace (dl : Delays) (a : DevAddr) (m : Mode) (b : Byte) (bl : Bool) :
    countDelays (sendTrace dl a m b bl) = 4 := rfl

/-- The host presents a byte transfer. -/
def HostAction.IsTransfer (x : HostAction) : Prop := ∃ m b, x = present (transferOp m b)

theorem scriptTrace_present_transferOp (dl : Delays) (a : DevAddr) (bl : Bool) (m : Mode) (b : Byte)
    (rest : List HostAction) : scriptTrace dl a bl (present (transferOp m b) :: rest) =
      sendTrace dl a m b bl ++ scriptTrace dl a bl rest := by
  cases m <;> simp [scriptTrace, present, transferOp, decode_encode, opTrace, blAfter]

/-- A script of byte transfers makes six writes and four delays for each of them. -/
theorem counts_scriptTrace_of_transfers (dl : Delays) (a : DevAddr) (bl : Bool) {acts : List HostAction}
    (h : ∀ x, x ∈ acts → x.IsTransfer) :
    countWrites (scriptTrace dl a bl acts) = 6 * acts.length ∧
      countDelays (scriptTrace dl a bl acts) = 4 * acts.length := by
  induction acts with
  | nil => exact ⟨rfl, rfl⟩
  | cons x rest ih =>
    obtain ⟨⟨m, b, rfl⟩, hrest⟩ := List.forall_mem_cons.1 h
    obtain ⟨hwrites, hdelays⟩ := ih hrest
    rw [scriptTrace_present_transferOp, countWrites_append, countDelays_append, countWrites_sendTrace,
      countDelays_sendTrace, hwrites, hdelays, List.length_cons]
    omega

/-! ### The codes of a line (42_host_sequences.md R93, R94) -/

theorem putcSeq_of_charCode {c : Char} {b : Byte} (h : charCode c = some b) : putcSeq c = some [present (.dat b)] := by
  simp [putcSeq, h]

theorem putcSeq_of_no_charCode {c : Char} (h : charCode c = none) : putcSeq c = none := by
  simp [putcSeq, h]

/-- A text has codes if each of its characters has one. -/
theorem exists_textCodes {text : List Char} (h : ∀ c, c ∈ text → charCode c ≠ none) :
    ∃ codes, textCodes text = some codes := by
  induction text with
  | nil => exact ⟨[], rfl⟩
  | cons c cs ih =>
    obtain ⟨hc, hcs⟩ := List.forall_mem_cons.1 h
    obtain ⟨b, hb⟩ := Option.ne_none_iff_exists'.1 hc
    obtain ⟨bs, hbs⟩ := ih hcs
    exact ⟨b :: bs, by simp [textCodes, hb, hbs]⟩

theorem textCodes_cons {c : Char} {cs : List Char} {codes : List Byte} (h : textCodes (c :: cs) = some codes) :
    ∃ b bs, charCode c = some b ∧ textCodes cs = some bs ∧ codes = b :: bs := by
  unfold textCodes at h
  split at h
  · next b bs hb hbs => exact ⟨b, bs, hb, hbs, (Option.some.inj h).symm⟩
  · cases h

/-- The codes are the text's, position by position, and past both their ends a space's. -/
theorem charCode_getD_of_textCodes {text : List Char} {codes : List Byte} (h : textCodes text = some codes) (i : Nat) :
    charCode ((text[i]?).getD ' ') = some ((codes[i]?).getD spaceCode) := by
  induction text generalizing codes i with
  | nil => cases h; rfl
  | cons c cs ih =>
    obtain ⟨b, bs, hb, hbs, rfl⟩ := textCodes_cons h
    cases i with
    | zero => exact hb
    | succ i => exact ih hbs i

theorem padLine_length (w : Nat) (codes : List Byte) : (padLine w codes).length = w := by
  induction w generalizing codes with
  | zero => rfl
  | succ w ih => cases codes <;> simp [padLine, ih]

theorem padLine_getElem? {w i : Nat} (codes : List Byte) (hi : i < w) :
    (padLine w codes)[i]? = some ((codes[i]?).getD spaceCode) := by
  induction w generalizing codes i with
  | zero => omega
  | succ w ih =>
    cases i with
    | zero => cases codes <;> rfl
    | succ i =>
      have hi' : i < w := Nat.lt_of_succ_lt_succ hi
      cases codes with
      | nil => exact ih [] hi'
      | cons b bs => exact ih bs hi'

/-! ### `WRLINE` -/

/-- What `WRLINE` presents after the line's address: a `DAT` for each code of the padded line. -/
def lineData (w : Nat) (codes : List Byte) : List HostAction := (padLine w codes).map fun b => present (.dat b)

theorem wrlineSeq_of_textCodes {text : List Char} {codes : List Byte} (h : textCodes text = some codes) (w : Nat)
    (n : Int) : wrlineSeq w text n = some (lineSeq n ++ lineData w codes) := by
  simp [wrlineSeq, h, lineData]

theorem lineData_length (w : Nat) (codes : List Byte) : (lineData w codes).length = w := by
  rw [lineData, List.length_map, padLine_length]

theorem lineData_getElem? {w i : Nat} (codes : List Byte) (hi : i < w) :
    (lineData w codes)[i]? = some (present (.dat ((codes[i]?).getD spaceCode))) := by
  rw [lineData, List.getElem?_map, padLine_getElem? codes hi, Option.map_some]

/-- `WRLINE` presents byte transfers alone: the line's address and its characters. -/
theorem isTransfer_of_mem_line {w : Nat} {codes : List Byte} {n : Int} {x : HostAction}
    (h : x ∈ lineSeq n ++ lineData w codes) : x.IsTransfer := by
  obtain haddress | hdata := List.mem_append.1 h
  · exact ⟨.command, _, List.mem_singleton.1 haddress⟩
  · obtain ⟨b, -, rfl⟩ := List.mem_map.1 hdata
    exact ⟨.data, b, rfl⟩

/-- Settles O50: the padded line has `WIDTH` codes, each its character's or a space's, and all of it is byte transfers. -/
theorem wrlineSendsExactlyWidthCharacters : Obligations.WrlineSendsExactlyWidthCharacters := by
  intro s text n htext
  obtain ⟨codes, hcodes⟩ := exists_textCodes fun c hc hnone => htext c hc (putcSeq_of_no_charCode hnone)
  refine ⟨lineData s.width codes, wrlineSeq_of_textCodes hcodes s.width n, lineData_length s.width codes,
    fun i hi => ?_, fun dl a bl => ?_⟩
  · exact ⟨_, lineData_getElem? codes hi, putcSeq_of_charCode (charCode_getD_of_textCodes hcodes i)⟩
  · have hlength : (lineSeq n ++ lineData s.width codes).length = 1 + s.width := by
      rw [List.length_append, lineData_length]
      rfl
    rw [← hlength]
    exact counts_scriptTrace_of_transfers dl a bl fun _ => isTransfer_of_mem_line

end Sys2Proof.Machine

/-! SUPPORT. The proofs of the family 60_exceptions.md: what a `TransportError` does, and that the `TF` it leaves set
changes no later operation (R102). -/

namespace Sys2Proof.Machine

/-! ### With `TF` set an operation does what it does with `TF` clear (60_exceptions.md R102) -/

/-- An operation does not read `TF` and does not clear it. -/
theorem afterOp_withTf_true (i : Instr) (s : State) : afterOp i (s.withTf true) = (afterOp i s).withTf true := by
  obtain ⟨f, hf⟩ := afterOp_withTf i s true
  have hset : (afterOp i (s.withTf true)).tf = true := (afterOp_tf i (s.withTf true)).sticky rfl
  obtain rfl : f = true := by rwa [hf] at hset
  exact hf

theorem exec_withTf_true {i : Instr} {s t : State} (h : exec i s = .next t) :
    exec i (s.withTf true) = .next (t.withTf true) := by
  obtain rfl : afterOp i s = t := Host.Outcome.next.inj ((exec_eq i s).symm.trans h)
  rw [exec_eq, afterOp_withTf_true]

/-! ### The entry into a `TransportError` (60_exceptions.md R102) -/

@[simp] theorem raiseTransportError_busy (v : Byte) (s : State) : (raiseTransportError v s).busy = false :=
  (busy_eq_false _).2 rfl

/-- Settles O26: the step is the model's `raiseTransportError`; `TF` is sticky, and no operation reads it. -/
theorem transportErrorEntry : Obligations.TransportErrorEntry := by
  refine ⟨fun s v hm ha => ?_, fun s t h => (step_tf h).sticky,
    fun i s t h => exec_withTf_true (s := s.withTf false) h⟩
  exact ⟨_, step_of_failing_write hm ha, by simp⟩

end Sys2Proof.Machine

/-! SUPPORT. The proofs of the family 70_reset_and_hazards.md: what construction answers (R120), and the two minimum delays
of the strobe (R125). -/

namespace Sys2Proof

/-- The legal parameters, as the bounds they are (60_exceptions.md R104). -/
theorem Params.wf_iff (p : Params) :
    p.wf = true ↔ 1 ≤ p.width ∧ (1 ≤ p.maxLines ∧ p.maxLines ≤ 4) ∧ p.address ≤ 0x7F := by
  simp [Params.wf, Params.widthOk, Params.maxLinesOk, Params.addressOk, and_assoc]

end Sys2Proof

namespace Sys2Proof.Machine

/-! ### Construction (70_reset_and_hazards.md R120) -/

/-- The three checks reject nothing exactly when all of them pass. -/
theorem illegalParams_eq_nil_iff (p : Params) : illegalParams p = [] ↔ p.wf = true := by
  simp [illegalParams, Params.wf, and_assoc]

theorem construct_of_wf (d : Delays) {p : Params} (h : p.wf = true) : construct d p = .next (State.afterReset d p) := by
  simp [construct, (illegalParams_eq_nil_iff p).2 h]

theorem construct_of_not_wf (d : Delays) {p : Params} (h : ¬ p.wf = true) :
    construct d p = .fault (.configurationError (illegalParams p)) := by
  unfold construct
  split
  · next hnil => exact absurd ((illegalParams_eq_nil_iff p).1 hnil) h
  · rfl

/-! ### The registers hold legal parameters unchanged (10_state.md R26) -/

theorem afterReset_addr_toNat (d : Delays) {p : Params} (h : p.address ≤ 0x7F) :
    (State.afterReset d p).addr.toNat = p.address :=
  (BitVec.toNat_ofNat ..).trans (Nat.mod_eq_of_lt (by omega))

theorem afterReset_width (d : Delays) {p : Params} (h : 1 ≤ p.width) :
    ((State.afterReset d p).width : Int) = p.width :=
  Int.toNat_of_nonneg (by omega)

theorem afterReset_maxLines_toNat (d : Delays) {p : Params} (h1 : 1 ≤ p.maxLines) (h4 : p.maxLines ≤ 4) :
    ((State.afterReset d p).maxLines.toNat : Int) = p.maxLines := by
  have hfits : (State.afterReset d p).maxLines.toNat = p.maxLines.toNat :=
    (BitVec.toNat_ofNat ..).trans (Nat.mod_eq_of_lt (by omega))
  rw [hfits]
  exact Int.toNat_of_nonneg (by omega)

/-- Settles O1: legal parameters construct the reset state, whose registers hold them; illegal ones are recorded. -/
theorem constructionGivesTheResetStateOrNoBlock : Obligations.ConstructionGivesTheResetStateOrNoBlock := by
  refine ⟨fun d p hw h1 h4 ha => ?_, fun d p hbad => ?_, construct_of_wf _ rfl, rfl, rfl, rfl, rfl, rfl, rfl, rfl, rfl⟩
  · exact ⟨_, construct_of_wf d (p.wf_iff.2 ⟨hw, ⟨h1, h4⟩, ha⟩), afterReset_addr_toNat d ha, afterReset_width d hw,
      afterReset_maxLines_toNat d h1 h4, rfl, rfl, rfl, rfl, rfl⟩
  · have hillegal : ¬ p.wf = true := by rw [Params.wf_iff]; omega
    exact ⟨_, construct_of_not_wf d hillegal⟩

/-! ### The delays of the strobe (70_reset_and_hazards.md R125) -/

/-- After a write with enable asserted the sequencer's next event is the hold of `T_PULSE`. -/
theorem micro_after_assert {s : State} (h : s.sq = .s2 ∨ s.sq = .s7) : s.micro = some (.delay s.delays.pulse) := by
  obtain h | h := h <;> simp [State.micro, h]

/-- After a write with enable deasserted the sequencer's next event is the hold of `T_SETTLE`. -/
theorem micro_after_deassert {s : State} (h : s.sq = .s4 ∨ s.sq = .s9) : s.micro = some (.delay s.delays.settle) := by
  obtain h | h := h <;> simp [State.micro, h]

/-- Settles O19: both delays are the build's, and a build's delays are at least 500 us each. -/
theorem strobeKeepsBothMinimumDelays : Obligations.StrobeKeepsBothMinimumDelays := by
  refine ⟨fun dl a c hdl => ?_, fun s hlegal hsq => ?_, rfl, rfl, fun dl hpulse hsettle => dl.wf_iff.2 ⟨hpulse, hsettle⟩⟩
  · obtain ⟨hpulse, hsettle⟩ := dl.wf_iff.1 hdl
    exact ⟨dl.pulse, dl.settle, hpulse, hsettle, rfl⟩
  · obtain ⟨-, -, -, hdl⟩ := hlegal
    obtain ⟨hpulse, hsettle⟩ := s.delays.wf_iff.1 hdl
    obtain hassert | hdeassert := or_assoc.2 hsq
    · exact ⟨_, hpulse, micro_after_assert hassert⟩
    · exact ⟨_, hsettle, micro_after_deassert hdeassert⟩

end Sys2Proof.Machine

/-! SUPPORT. The records every step keeps (10_state.md R11, R19, R22; 20_memory.md R45; 30_encoding.md R58): the events a
step appends, what they say of the registers behind the bus, and what `TF` says of them. -/

namespace Sys2Proof.Machine

/-! ### The values the sequencer writes (10_state.md R17, R18) -/

/-- Every value the sequencer writes is composed from the latches, the enable bit clear or set. -/
theorem micro_write_cases {s : State} {v : Byte} (h : s.micro = some (.write v)) :
    ∃ n, (n = highNibble s.opb ∨ n = lowNibble s.opb) ∧
      (v = ctrl s.opm n s.opl ∨ v = assertEnable (ctrl s.opm n s.opl)) := by
  unfold State.micro at h
  split at h <;> cases h
  · exact ⟨_, .inl rfl, .inl rfl⟩
  · exact ⟨_, .inl rfl, .inr rfl⟩
  · exact ⟨_, .inl rfl, .inl (deassertEnable_ctrl ..)⟩
  · exact ⟨_, .inr rfl, .inl rfl⟩
  · exact ⟨_, .inr rfl, .inr rfl⟩
  · exact ⟨_, .inr rfl, .inl (deassertEnable_ctrl ..)⟩

theorem bit1_of_micro {s : State} {v : Byte} (h : s.micro = some (.write v)) : v.getLsbD 1 = false := by
  obtain ⟨n, -, rfl | rfl⟩ := micro_write_cases h
  · exact ctrl_bit1 ..
  · exact assertEnable_bit1 ..

/-! ### What a run of events does to the records -/

@[simp] theorem advance_mem (s : State) : (advance s).mem = s.mem := by unfold advance; split <;> rfl

theorem portAfter_append (k : Nat) (known : Option Byte) (es es' : List Event) :
    portAfter k known (es ++ es') = portAfter k (portAfter k known es) es' := by
  induction es generalizing known with
  | nil => rfl
  | cons e es ih => cases e <;> exact ih _

theorem read_write_eq_portAfter (m : Memory) (a : DevAddr) (v : Byte) (k : Nat) :
    Memory.read (Memory.write m (busAddress a).toNat v) k = portAfter k (Memory.read m k) [.w a v] := by
  by_cases hk : (busAddress a).toNat = k
  · subst hk; simp [portAfter, Memory.read_write_self]
  · simp [portAfter, hk, Memory.read_write_ne m v (Ne.symm hk)]

theorem read_forget_eq_portAfter {m : Memory} (hm : Memory.wf m = true) (a : DevAddr) (v : Byte) (k : Nat) :
    Memory.read (Memory.forget m (busAddress a).toNat) k = portAfter k (Memory.read m k) [.wf a v] := by
  obtain ⟨hrising, -⟩ := (Bool.and_eq_true ..).mp hm
  by_cases hk : (busAddress a).toNat = k
  · subst hk; simp [portAfter, Memory.read_forget_self m _ hrising]
  · simp [portAfter, hk, Memory.read_forget_ne m (Ne.symm hk)]

/-- From `s` to `t` the events `new` happened: the trace grew by them, all of them clean; canonical memory stayed so and
follows them; `TF` is set if it was or if one of them failed. -/
structure Recorded (new : List Event) (s t : State) : Prop where
  config : t.config = s.config
  trace  : t.trace = s.trace ++ new
  clean  : ∀ e, e ∈ new → e.cleanAt s.addr
  memWf  : Memory.wf s.mem = true → Memory.wf t.mem = true
  port   : Memory.wf s.mem = true → ∀ k, Memory.read t.mem k = portAfter k (Memory.read s.mem k) new
  flag   : t.tf = true ↔ s.tf = true ∨ ∃ e, e ∈ new ∧ e.failed = true

/-- Where the four records stay as they were, nothing happened. -/
theorem recorded_nil {s t : State} (hconfig : t.config = s.config) (htrace : t.trace = s.trace) (hmem : t.mem = s.mem)
    (htf : t.tf = s.tf) : Recorded [] s t where
  config := hconfig
  trace := by simpa using htrace
  clean := nofun
  memWf := by rw [hmem]; exact id
  port _ k := by rw [hmem]; rfl
  flag := by simp [htf]

theorem Recorded.trans {new new' : List Event} {s t u : State} (h : Recorded new s t) (h' : Recorded new' t u) :
    Recorded (new ++ new') s u where
  config := h'.config.trans h.config
  trace := by rw [h'.trace, h.trace, List.append_assoc]
  clean e he := by
    obtain ⟨haddr, -⟩ := config_eq_iff.1 h.config
    exact (List.mem_append.1 he).elim (h.clean e) fun he' => haddr ▸ h'.clean e he'
  memWf hwf := h'.memWf (h.memWf hwf)
  port hwf k := by rw [h'.port (h.memWf hwf), h.port hwf, portAfter_append]
  flag := by simp only [h'.flag, h.flag, List.mem_append, or_and_right, exists_or, or_assoc]

theorem recorded_delay (d : Nat) (s : State) : Recorded [.t d] s (emit (.t d) s) where
  config := rfl
  trace := rfl
  clean e he := by rw [List.mem_singleton.1 he]; trivial
  memWf := id
  port _ _ := rfl
  flag := by simp [Event.failed]

theorem recorded_completeWrite {v : Byte} (hv : v.getLsbD 1 = false) (s : State) :
    Recorded [.w s.addr v] s (completeWrite v s) where
  config := rfl
  trace := rfl
  clean e he := by rw [List.mem_singleton.1 he]; exact ⟨rfl, hv⟩
  memWf := Memory.wf_write v (busAddress_lt s.addr)
  port _ k := read_write_eq_portAfter s.mem s.addr v k
  flag := by simp [Event.failed]

theorem recorded_raiseTransportError {v : Byte} (hv : v.getLsbD 1 = false) (s : State) :
    Recorded [.wf s.addr v] s (raiseTransportError v s) where
  config := rfl
  trace := rfl
  clean e he := by rw [List.mem_singleton.1 he]; exact ⟨rfl, hv⟩
  memWf := Memory.wf_forget _
  port hwf k := read_forget_eq_portAfter hwf s.addr v k
  flag := by simp [Event.failed]

theorem recorded_advance (s : State) : Recorded [] s (advance s) := recorded_nil (by simp) (by simp) (by simp) (by simp)

theorem recorded_takeAnswer (s : State) : Recorded [] s (takeAnswer s) :=
  recorded_nil (by simp) (by simp) (by simp) (by simp)

theorem recorded_popAction (s : State) : Recorded [] s (popAction s) := recorded_nil rfl rfl rfl rfl

/-- A step of the sequencer is one event or none. -/
theorem recorded_seqStep (s : State) : ∃ new, new.length ≤ 1 ∧ Recorded new s (seqStep s) := by
  obtain ⟨-, h⟩ | ⟨v, hm, -, h⟩ | ⟨v, hm, -, h⟩ | ⟨v, -, -, h⟩ | ⟨d, -, h⟩ := seqStep_cases s <;> rw [h]
  · exact ⟨[], by simp, recorded_nil rfl rfl rfl rfl⟩
  · have hwrite := recorded_completeWrite (bit1_of_micro hm) (takeAnswer s)
    exact ⟨_, by simp, ((recorded_takeAnswer s).trans hwrite).trans (recorded_advance _)⟩
  · have hfail := recorded_raiseTransportError (bit1_of_micro hm) (takeAnswer s)
    exact ⟨_, by simp, (recorded_takeAnswer s).trans hfail⟩
  · exact ⟨[], by simp, recorded_nil rfl rfl rfl rfl⟩
  · exact ⟨_, by simp, (recorded_delay d s).trans (recorded_advance _)⟩

theorem recorded_runSeq (n : Nat) (s : State) : ∃ new, Recorded new s (runSeq n s) := by
  induction n generalizing s with
  | zero => exact ⟨[], recorded_nil rfl rfl rfl rfl⟩
  | succ n ih =>
    obtain ⟨new, -, hstep⟩ := recorded_seqStep s
    obtain ⟨new', hrest⟩ := ih (seqStep s)
    exact ⟨_, hstep.trans hrest⟩

theorem recorded_transfer (m : Mode) (b : Byte) (s : State) : ∃ new, Recorded new s (transfer m b s) := by
  obtain ⟨new, hrun⟩ := recorded_runSeq 10 (acceptTransfer m b s)
  exact ⟨new, (recorded_nil rfl rfl rfl rfl : Recorded [] s (acceptTransfer m b s)).trans hrun⟩

theorem recorded_afterOp (i : Instr) (s : State) : ∃ new, Recorded new s (afterOp i s) := by
  obtain h | ⟨m, b, h⟩ | ⟨v, h⟩ := afterOp_cases i s <;> rw [h]
  · exact ⟨[], recorded_nil rfl rfl rfl rfl⟩
  · exact recorded_transfer m b s
  · exact ⟨[], recorded_nil rfl rfl rfl rfl⟩

/-- Everything a step does to the records. -/
theorem recorded_step {s t : State} (h : step s = .next t) : ∃ new, Recorded new s t := by
  obtain ⟨-, rfl⟩ | ⟨-, -, rfl⟩ | ⟨d, _, -, -, rfl⟩ | ⟨rq, _, i, -, -, -, rfl⟩ | ⟨rq, _, _, -, -, -, rfl⟩ :=
    step_cases h
  · obtain ⟨new, -, hstep⟩ := recorded_seqStep s
    exact ⟨new, hstep⟩
  · exact ⟨[], recorded_nil rfl rfl rfl rfl⟩
  · exact ⟨_, (recorded_popAction s).trans (recorded_delay d _)⟩
  · obtain ⟨new, hop⟩ := recorded_afterOp i (popAction s)
    exact ⟨_, (recorded_popAction s).trans hop⟩
  · exact ⟨[], recorded_nil rfl rfl rfl rfl⟩

/-! ### The invariant of the records -/

theorem State.ConfigLegal.congr {s t : State} (h : s.ConfigLegal) (hconfig : t.config = s.config) : t.ConfigLegal := by
  obtain ⟨-, hwidth, hmaxLines, hdelays⟩ := config_eq_iff.1 hconfig
  rwa [State.ConfigLegal, hwidth, hmaxLines, hdelays]

theorem State.Inv.recorded {new : List Event} {s t : State} (h : s.Inv) (hr : Recorded new s t) : t.Inv where
  configLegal := h.configLegal.congr hr.config
  memWf := hr.memWf h.memWf
  port k := by rw [hr.port h.memWf, h.port, hr.trace, portAfter_append]
  clean e he := by
    obtain ⟨haddr, -⟩ := config_eq_iff.1 hr.config
    rw [hr.trace] at he
    exact haddr ▸ (List.mem_append.1 he).elim (h.clean e) (hr.clean e)
  faultFlag := by simp only [hr.flag, h.faultFlag, hr.trace, List.mem_append, or_and_right, exists_or]

/-- Settles O4: a step appends events and takes the registers behind the bus and `TF` along with them. -/
theorem stepKeepsTheRecordInvariant : Obligations.StepKeepsTheRecordInvariant := by
  intro s t hinv hstep
  obtain ⟨new, hr⟩ := recorded_step hstep
  exact hinv.recorded hr

/-- Settles O3: at reset nothing has happened, and nothing is known of the adapters' registers. -/
theorem resetSatisfiesTheRecordInvariant : Obligations.ResetSatisfiesTheRecordInvariant where
  configLegal := by unfold State.ConfigLegal; decide
  memWf := rfl
  port _ := rfl
  clean := nofun
  faultFlag := ⟨nofun, nofun⟩

/-! ### The addresses and the values of the events (40_send.md R79; 30_encoding.md R58, R59) -/

theorem busAddress_toNat (a : DevAddr) : (busAddress a).toNat = a.toNat := by
  have hlt := a.isLt
  rw [busAddress, BitVec.toNat_setWidth]
  omega

theorem Event.cleanAt.address_eq {a a' : DevAddr} {e : Event} (h : e.cleanAt a) (ha : e.address = some a') : a' = a := by
  cases e <;> cases ha <;> exact h.1

theorem Event.cleanAt.bit1 {a : DevAddr} {e : Event} {v : Byte} (h : e.cleanAt a) (hv : e.value = some v) :
    v.getLsbD 1 = false := by
  cases e <;> cases hv <;> exact h.2

/-- Settles O16: a byte transfer appends clean events, and a clean event goes to `ADDR`. -/
theorem everyWriteOfATransferGoesToAddr : Obligations.EveryWriteOfATransferGoesToAddr := by
  refine ⟨busAddress_toNat, fun m b s t hexec => ?_⟩
  obtain rfl := Host.Outcome.next.inj ((exec_eq _ s).symm.trans hexec)
  obtain ⟨new, hr⟩ := recorded_afterOp (transferOp m b) s
  exact ⟨new, hr.trace, fun e he a ha => (hr.clean e he).address_eq ha⟩

/-- With bit 1 clear the enable bit alone says the class (30_encoding.md R58). -/
theorem class_of_bit1_clear {v : Byte} (h : v.getLsbD 1 = false) : v &&& 0x06#8 = 0x00#8 ∨ v &&& 0x06#8 = 0x04#8 := by
  revert v; decide

theorem bit1_writeValue (m : Mode) (b : Byte) (bl : Bool) (k : Nat) : (writeValue m b bl k).getLsbD 1 = false := by
  unfold writeValue
  split <;> simp only [← ctrl_highNibble, ← ctrl_lowNibble, deassertEnable_ctrl, ctrl_bit1, assertEnable_bit1]

/-- A byte with bit 1 clear is the first or the second write of a transfer in its own mode and under its own backlight bit
of a byte with its own data lines. -/
theorem writeValue_fields {v : Byte} (h : v.getLsbD 1 = false) :
    writeValue (modeField v) v (backlightField v) (if enableField v then 1 else 0) = v := by
  revert v; decide

/-- Settles O38: every appended event is clean, and every clean value is written by some transfer. -/
theorem emittedControlBytes : Obligations.EmittedControlBytes := by
  refine ⟨fun s t hstep => ?_, fun v => ⟨fun hv => ?_, ?_⟩⟩
  · obtain ⟨new, hr⟩ := recorded_step hstep
    exact ⟨new, hr.trace, fun e he v hv => class_of_bit1_clear ((hr.clean e he).bit1 hv)⟩
  · exact ⟨_, _, _, _, by split <;> decide, writeValue_fields hv⟩
  · rintro ⟨m, b, bl, k, -, rfl⟩
    exact bit1_writeValue m b bl k

/-- Settles O39: the one event of the step decides the register at `ADDR`, and no other one. -/
theorem adapterRegisterFollowsTheWrites : Obligations.AdapterRegisterFollowsTheWrites := by
  constructor
  · intro s v hm hok
    refine ⟨_, step_of_busy (sq_ne_idle_of_micro hm), ?_⟩
    simp only [seqStep_ok hm hok, advance_mem, completeWrite_mem, takeAnswer_addr, takeAnswer_mem]
    exact ⟨Memory.read_write_self .., fun a ha => Memory.read_write_ne s.mem v ha⟩
  · intro s v hwf hm herr
    obtain ⟨hrising, -⟩ := (Bool.and_eq_true ..).mp hwf
    refine ⟨_, step_of_failing_write hm herr, ?_⟩
    simp only [raiseTransportError_mem, takeAnswer_addr, takeAnswer_mem]
    exact ⟨Memory.read_forget_self s.mem _ hrising, fun a ha => Memory.read_forget_ne s.mem ha⟩

end Sys2Proof.Machine

/-! SUPPORT. The trace only grows, and a failed write ends what a step appends (20_memory.md R45). -/

namespace Sys2Proof.Machine

/-- No event but the last is a failed write. -/
def FailsLast (new : List Event) : Prop := ∀ e, e ∈ new.dropLast → e.failed = false

theorem FailsLast.of_length_le_one {new : List Event} (h : new.length ≤ 1) : FailsLast new := by
  have hnil : new.dropLast = [] := List.length_eq_zero_iff.1 (by simp [h])
  simp [FailsLast, hnil]

theorem FailsLast.of_none_failed {new : List Event} (h : ∀ e, e ∈ new → e.failed = false) : FailsLast new :=
  fun e he => h e (List.mem_of_mem_dropLast he)

theorem FailsLast.concat {new : List Event} (h : ∀ e, e ∈ new → e.failed = false) (e : Event) : FailsLast (new ++ [e]) := by
  rwa [FailsLast, List.dropLast_concat]

theorem not_failed_of_mem_sendTrace {dl : Delays} {a : DevAddr} {m : Mode} {b : Byte} {bl : Bool} {e : Event}
    (h : e ∈ sendTrace dl a m b bl) : e.failed = false := by
  simp only [sendTrace_eq, List.mem_cons, List.not_mem_nil, or_false] at h
  rcases h with rfl | rfl | rfl | rfl | rfl | rfl | rfl | rfl | rfl | rfl <;> rfl

theorem transfer_never_trace (m : Mode) (b : Byte) {s : State} {k : Nat} (hk : k < 6) (hok : s.BusOk k)
    (hnever : s.answerAhead k = .never) :
    (transfer m b s).trace = s.trace ++ (sendTrace s.delays s.addr m b s.bl).take (writeStep k).index := by
  simp [transfer_never m b s hk hok hnever, midState, index_writeStep hk]

/-- The three outcomes of a byte transfer: its whole trace, a part of it, or a part of it and the failed write. -/
theorem transfer_failsLast (m : Mode) (b : Byte) (s : State) :
    ∃ new, (transfer m b s).trace = s.trace ++ new ∧ FailsLast new := by
  have htake (n : Nat) : ∀ e, e ∈ (sendTrace s.delays s.addr m b s.bl).take n → e.failed = false :=
    fun e he => not_failed_of_mem_sendTrace (List.mem_of_mem_take he)
  obtain hok | ⟨k, hk, hok, herr | hnever⟩ := busOk_or_first s 6
  · exact ⟨_, transfer_done_trace m b hok, FailsLast.of_none_failed fun _ => not_failed_of_mem_sendTrace⟩
  · exact ⟨_, (transfer_err_trace m b hk hok herr).trans (List.append_assoc ..), FailsLast.concat (htake _) _⟩
  · exact ⟨_, transfer_never_trace m b hk hok hnever, FailsLast.of_none_failed (htake _)⟩

theorem afterOp_failsLast (i : Instr) (s : State) : ∃ new, (afterOp i s).trace = s.trace ++ new ∧ FailsLast new := by
  obtain h | ⟨m, b, h⟩ | ⟨v, h⟩ := afterOp_cases i s <;> rw [h]
  · exact ⟨[], by simp, nofun⟩
  · exact transfer_failsLast m b s
  · exact ⟨[], by simp, nofun⟩

/-- Settles O33: outside a transfer a step appends one event at most, and a failed write ends a transfer. -/
theorem traceOnlyGrowsAndFailureIsLast : Obligations.TraceOnlyGrowsAndFailureIsLast := by
  intro s t hstep
  obtain ⟨-, rfl⟩ | ⟨-, -, rfl⟩ | ⟨d, _, -, -, rfl⟩ | ⟨rq, _, i, -, -, -, rfl⟩ | ⟨rq, _, _, -, -, -, rfl⟩ :=
    step_cases hstep
  · obtain ⟨new, hlength, hr⟩ := recorded_seqStep s
    exact ⟨new, hr.trace, FailsLast.of_length_le_one hlength⟩
  · exact ⟨[], by simp, nofun⟩
  · exact ⟨[.t d], rfl, nofun⟩
  · exact afterOp_failsLast i (popAction s)
  · exact ⟨[], by simp, nofun⟩

end Sys2Proof.Machine

/-! SUPPORT. The lines of the bus (40_send.md R76; 70_reset_and_hazards.md R126, R129): where the enable line falls, what
it latches there, and the invariant of a history with `TF = 0`. -/

namespace Sys2Proof.Machine

/-! ### Falling edges of a trace in two parts -/

theorem writesTo_append (a : DevAddr) (es es' : List Event) :
    writesTo a (es ++ es') = writesTo a es ++ writesTo a es' := by
  induction es with
  | nil => rfl
  | cons e es ih =>
    cases e with
    | w a' v => by_cases h : a' = a <;> simp [writesTo, h, ih]
    | wf a' v => exact ih
    | t d => exact ih

/-- What comes later takes no falling edge away. -/
theorem mem_fallingEdges_append_left {e : Byte × Byte} {vs : List Byte} (vs' : List Byte) (h : e ∈ fallingEdges vs) :
    e ∈ fallingEdges (vs ++ vs') := by
  induction vs using fallingEdges.induct with
  | case1 => cases h
  | case2 v => cases h
  | case3 v1 v2 vs hfall ih =>
    simp only [fallingEdges, hfall, if_true, List.mem_cons, List.cons_append] at h ⊢
    exact h.imp_right ih
  | case4 v1 v2 vs hfall ih =>
    simp only [fallingEdges, hfall, List.cons_append] at h ⊢
    exact ih h

/-- Where the first part leaves the enable line low, there is no falling edge between the parts. -/
theorem fallingEdges_append_of_low {vs : List Byte} (vs' : List Byte)
    (hlow : ∀ v, vs.getLast? = some v → enableField v = false) :
    fallingEdges (vs ++ vs') = fallingEdges vs ++ fallingEdges vs' := by
  induction vs using fallingEdges.induct with
  | case1 => rfl
  | case2 v => cases vs' <;> simp [fallingEdges, hlow v rfl]
  | case3 v1 v2 vs hfall ih =>
    simp only [fallingEdges, hfall, if_true, List.cons_append] at ih ⊢
    rw [ih (by simpa using hlow)]
  | case4 v1 v2 vs hfall ih =>
    simp only [fallingEdges, hfall, List.cons_append] at ih ⊢
    exact ih (by simpa using hlow)

/-- Two traces one after the other keep the lines stable and end low if each of them does. -/
theorem EdgesStable.append {a : DevAddr} {es es' : List Event} (h : EdgesStable a es) (hlow : EnableLow a es)
    (h' : EdgesStable a es') : EdgesStable a (es ++ es') := by
  intro e he
  rw [writesTo_append, fallingEdges_append_of_low _ hlow] at he
  exact (List.mem_append.1 he).elim (h e) (h' e)

theorem EdgesStable.of_append {a : DevAddr} {es : List Event} (es' : List Event) (h : EdgesStable a (es ++ es')) :
    EdgesStable a es :=
  fun e he => h e (by rw [writesTo_append]; exact mem_fallingEdges_append_left _ he)

theorem EnableLow.append {a : DevAddr} {es es' : List Event} (h : EnableLow a es) (h' : EnableLow a es') :
    EnableLow a (es ++ es') := by
  intro v hv
  rw [writesTo_append, List.getLast?_append, Option.or_eq_some_iff] at hv
  exact hv.elim (h' v) fun hv => h v hv.2

theorem latched_append_of_low {a : DevAddr} {es : List Event} (es' : List Event) (hlow : EnableLow a es) :
    latched a (es ++ es') = latched a es ++ latched a es' := by
  rw [latched, writesTo_append, fallingEdges_append_of_low _ hlow, List.map_append]
  rfl

/-! ### The lines under one byte transfer -/

theorem enableLow_sendTrace (dl : Delays) (a : DevAddr) (m : Mode) (b : Byte) (bl : Bool) :
    EnableLow a (sendTrace dl a m b bl) := by
  intro v hv
  rw [writesTo_sendTrace] at hv
  obtain rfl : composeLo m b bl = v := Option.some.inj hv
  rw [← ctrl_lowNibble, enableField_ctrl]

theorem edgesStable_sendTrace (dl : Delays) (a : DevAddr) (m : Mode) (b : Byte) (bl : Bool) :
    EdgesStable a (sendTrace dl a m b bl) := by
  intro e he
  simp only [fallingEdges_sendTrace, List.mem_cons, List.not_mem_nil, or_false] at he
  obtain rfl | rfl := he
  · rw [← ctrl_highNibble, deassertEnable_assertEnable]
  · rw [← ctrl_lowNibble, deassertEnable_assertEnable]

theorem enableLow_delay (a : DevAddr) (d : Nat) : EnableLow a [.t d] := nofun

theorem edgesStable_delay (a : DevAddr) (d : Nat) : EdgesStable a [.t d] := nofun

/-- At its two falling edges a byte transfer latches its mode and its two nibbles, the high one first (40_send.md R76). -/
theorem latched_sendTrace (dl : Delays) (a : DevAddr) (m : Mode) (b : Byte) (bl : Bool) :
    latched a (sendTrace dl a m b bl) = [(m, highNibble b), (m, lowNibble b)] := by
  simp only [latched, fallingEdges_sendTrace, ← ctrl_highNibble, ← ctrl_lowNibble, List.map_cons, List.map_nil,
    modeField_ctrl, dataField_ctrl]

theorem pairNibbles_of_byte (m : Mode) (b : Byte) : pairNibbles [(m, highNibble b), (m, lowNibble b)] = [(m, b)] := by
  simp only [pairNibbles, highNibble_append_lowNibble]

theorem pairNibbles_latched_sendTrace (dl : Delays) (a : DevAddr) (m : Mode) (b : Byte) (bl : Bool) :
    pairNibbles (latched a (sendTrace dl a m b bl)) = [(m, b)] := by
  rw [latched_sendTrace, pairNibbles_of_byte]

/-- Settles O18: the mode and the byte are a function of the trace, so equal traces have them equal. -/
theorem latchedNibblesAreTheOperand : Obligations.LatchedNibblesAreTheOperand := by
  refine ⟨fun dl a m b bl => ⟨latched_sendTrace .., pairNibbles_latched_sendTrace ..⟩, fun dl a m m' b b' bl h => ?_⟩
  have hsent : [(m, b)] = [(m', b')] := by
    rw [← pairNibbles_latched_sendTrace dl a m b bl, h, pairNibbles_latched_sendTrace]
  simpa using hsent

/-! ### The event of a step has its place in the transfer's trace (10_state.md R17) -/

theorem getElem?_sendTrace_of_write {s : State} {v : Byte} (h : s.micro = some (.write v)) :
    (sendTrace s.delays s.addr s.opm s.opb s.opl)[s.sq.index]? = some (.w s.addr v) := by
  unfold State.micro at h
  split at h <;> cases h <;> simp only [State.latchedHi, State.latchedLo, ctrl_highNibble, ctrl_lowNibble, *] <;> rfl

theorem getElem?_sendTrace_of_delay {s : State} {d : Nat} (h : s.micro = some (.delay d)) :
    (sendTrace s.delays s.addr s.opm s.opb s.opl)[s.sq.index]? = some (.t d) := by
  unfold State.micro at h
  split at h <;> cases h <;> simp only [*] <;> rfl

theorem index_succ {q : Sq} (h : q.succ ≠ .idle) : q.succ.index = q.index + 1 := by
  revert h; cases q <;> decide

/-- Only the tenth event leads back to `Idle`. -/
theorem index_of_last {q : Sq} (hq : q ≠ .idle) (h : q.succ = .idle) : q.index + 1 = 10 := by
  revert hq h; cases q <;> decide

/-! ### The invariant of the lines -/

/-- The trace is that of finished operations, which left the lines as the invariant asks, and then the first `j` events of
the transfer in the latches. -/
def State.LinesUpTo (s : State) (j : Nat) : Prop :=
  ∃ before, s.trace = before ++ (sendTrace s.delays s.addr s.opm s.opb s.opl).take j ∧
    EnableLow s.addr before ∧ EdgesStable s.addr before

@[simp] theorem linesUpTo_takeAnswer (s : State) (j : Nat) : (takeAnswer s).LinesUpTo j ↔ s.LinesUpTo j := by
  simp [State.LinesUpTo]

theorem State.LinesUpTo.emit {s : State} {j : Nat} {e : Event} (h : s.LinesUpTo j)
    (he : (sendTrace s.delays s.addr s.opm s.opb s.opl)[j]? = some e) : (emit e s).LinesUpTo (j + 1) := by
  obtain ⟨before, htrace, hbefore⟩ := h
  refine ⟨before, ?_, hbefore⟩
  simp only [emit_trace, emit_delays, emit_addr, emit_opm, emit_opb, emit_opl, List.take_add_one, he, htrace,
    Option.toList_some, List.append_assoc]

/-- With nothing of a transfer begun, or all of it done, the whole trace leaves the lines as the invariant asks. -/
theorem State.LinesUpTo.lines_of_zero {s : State} (h : s.LinesUpTo 0) :
    EnableLow s.addr s.trace ∧ EdgesStable s.addr s.trace := by
  obtain ⟨before, htrace, hbefore⟩ := h
  rwa [htrace, List.take_zero, List.append_nil]

theorem State.LinesUpTo.lines_of_ten {s : State} (h : s.LinesUpTo 10) :
    EnableLow s.addr s.trace ∧ EdgesStable s.addr s.trace := by
  obtain ⟨before, htrace, hlow, hstable⟩ := h
  rw [htrace, List.take_of_length_le (by rfl)]
  exact ⟨hlow.append (enableLow_sendTrace _ _ _ _ _), hstable.append hlow (edgesStable_sendTrace _ _ _ _ _)⟩

theorem lineInv_iff (s : State) : s.LineInv ↔ (s.tf = false → s.LinesUpTo s.sq.index) := Iff.rfl

theorem lineInv_iff_of_idle {s : State} (hidle : s.sq = .idle) :
    s.LineInv ↔ (s.tf = false → EnableLow s.addr s.trace ∧ EdgesStable s.addr s.trace) := by
  rw [lineInv_iff, hidle]
  exact ⟨fun h htf => (h htf).lines_of_zero, fun h htf => ⟨s.trace, (List.append_nil _).symm, h htf⟩⟩

/-- After the event of its step the sequencer goes on to the next one, or ends the operation after the tenth. -/
theorem lineInv_advance {s : State} (hsq : s.sq ≠ .idle) (h : s.tf = false → s.LinesUpTo (s.sq.index + 1)) :
    (advance s).LineInv := by
  by_cases hlast : s.sq.succ = .idle
  · rw [advance_last hlast, lineInv_iff_of_idle rfl]
    rw [index_of_last hsq hlast] at h
    exact fun htf => (h htf).lines_of_ten
  · rw [advance_next hlast, lineInv_iff, index_succ hlast]
    exact h

theorem lineInv_seqStep {s : State} (h : s.LineInv) : (seqStep s).LineInv := by
  rw [lineInv_iff] at h
  obtain ⟨-, hs⟩ | ⟨v, hm, -, hs⟩ | ⟨v, -, -, hs⟩ | ⟨v, -, -, hs⟩ | ⟨d, hm, hs⟩ := seqStep_cases s <;> rw [hs]
  · exact h
  · have hevent := getElem?_sendTrace_of_write hm
    refine lineInv_advance (by simpa using sq_ne_idle_of_micro hm) fun htf => ?_
    have hup : (takeAnswer s).LinesUpTo s.sq.index := (linesUpTo_takeAnswer ..).2 (h (by simpa using htf))
    rw [completeWrite_sq, takeAnswer_sq]
    exact hup.emit (e := .w (takeAnswer s).addr v) (by simpa using hevent)
  · exact fun htf => absurd htf (by simp)
  · exact h
  · exact lineInv_advance (sq_ne_idle_of_micro hm) fun htf => (h htf).emit (getElem?_sendTrace_of_delay hm)

theorem lineInv_runSeq (n : Nat) {s : State} (h : s.LineInv) : (runSeq n s).LineInv := by
  induction n generalizing s with
  | zero => exact h
  | succ n ih => exact ih (lineInv_seqStep h)

/-- An accepted transfer has done none of its events yet. -/
theorem lineInv_acceptTransfer (m : Mode) (b : Byte) {s : State} (hidle : s.sq = .idle) (h : s.LineInv) :
    (acceptTransfer m b s).LineInv := by
  rw [lineInv_iff_of_idle hidle] at h
  exact fun htf => ⟨s.trace, (List.append_nil _).symm, h htf⟩

theorem lineInv_afterOp (i : Instr) {s : State} (hidle : s.sq = .idle) (h : s.LineInv) : (afterOp i s).LineInv := by
  obtain hop | ⟨m, b, hop⟩ | ⟨v, hop⟩ := afterOp_cases i s <;> rw [hop]
  · exact h
  · exact lineInv_runSeq 10 (lineInv_acceptTransfer m b hidle h)
  · rw [lineInv_iff_of_idle hidle] at h
    exact (lineInv_iff_of_idle hidle).2 h

theorem lineInv_hostWait (d : Nat) {s : State} (hidle : s.sq = .idle) (h : s.LineInv) : (hostWait d s).LineInv := by
  rw [lineInv_iff_of_idle hidle] at h
  refine (lineInv_iff_of_idle (s := hostWait d s) hidle).2 fun htf => ?_
  obtain ⟨hlow, hstable⟩ := h htf
  exact ⟨hlow.append (enableLow_delay _ d), hstable.append hlow (edgesStable_delay _ d)⟩

/-- Settles O6: the sequencer adds the event of its step, and at `Idle` the history is that of finished operations. -/
theorem stepKeepsTheLineInvariant : Obligations.StepKeepsTheLineInvariant := by
  intro s t h hstep
  have hpop : (popAction s).LineInv := h
  obtain ⟨-, rfl⟩ | ⟨-, -, rfl⟩ | ⟨d, _, hi, -, rfl⟩ | ⟨rq, _, i, hi, -, -, rfl⟩ | ⟨rq, _, _, -, -, -, rfl⟩ :=
    step_cases hstep
  · exact lineInv_seqStep h
  · exact h
  · exact lineInv_hostWait d hi hpop
  · exact lineInv_afterOp i hi hpop
  · exact h

/-- Settles O5: at reset there is no event. -/
theorem resetSatisfiesTheLineInvariant : Obligations.ResetSatisfiesTheLineInvariant :=
  (lineInv_iff_of_idle rfl).2 fun _ => ⟨nofun, nofun⟩

/-- Settles O7: what is there of the transfer in progress is a beginning of a trace whose edges are stable. -/
theorem linesAreStableAtFallingEdges : Obligations.LinesAreStableAtFallingEdges := by
  intro s h htf
  obtain ⟨before, htrace, hlow, hstable⟩ := h htf
  have hwhole := hstable.append hlow (edgesStable_sendTrace s.delays s.addr s.opm s.opb s.opl)
  rw [← List.take_append_drop s.sq.index (sendTrace ..), ← List.append_assoc, ← htrace] at hwhole
  exact hwhole.of_append

/-! ### What a failed transfer leaves behind the bus (70_reset_and_hazards.md R129) -/

/-- The events a byte transfer appends when its k-th write fails, k from 0 (60_exceptions.md R102). -/
def failedTrace (dl : Delays) (a : DevAddr) (m : Mode) (b : Byte) (bl : Bool) (k : Nat) : List Event :=
  (sendTrace dl a m b bl).take (writeStep k).index ++ [.wf a (writeValue m b bl k)]

/-- The six writes of a byte transfer, of which the k-th failed: the first k reached the adapter. -/
theorem writesTo_failedTrace (dl : Delays) (a : DevAddr) (m : Mode) (b : Byte) (bl : Bool) {k : Nat} (hk : k < 6) :
    writesTo a (failedTrace dl a m b bl k) = (writesTo a (sendTrace dl a m b bl)).take k := by
  rw [writesTo_sendTrace, failedTrace, sendTrace_eq]
  interval_cases k <;> simp [writesTo, writeStep, Sq.index]

/-- Settles O17: R129's table is about the first k of the six written values. -/
theorem faultLeavesTheseWritesBehindTheBus : Obligations.FaultLeavesTheseWritesBehindTheBus := by
  intro m b s k hidle hk hok herr
  refine ⟨_, failedTrace s.delays s.addr m b s.bl k, exec_transferOp_of_idle m b hidle,
    (transfer_err_trace m b hk hok herr).trans (List.append_assoc ..), ?_, ?_⟩
  · rw [writesTo_failedTrace _ _ _ _ _ hk, writesTo_sendTrace]
    interval_cases k <;> rfl
  · rw [latched, writesTo_failedTrace _ _ _ _ _ hk, writesTo_sendTrace, ← ctrl_highNibble, ← ctrl_lowNibble]
    interval_cases k <;> simp [fallingEdges, enableField_ctrl, enableField_assertEnable, modeField_ctrl, dataField_ctrl]

end Sys2Proof.Machine

/-! SUPPORT. The sequencer and the host port (10_state.md R17, R18, R23; 60_exceptions.md R109): the whole next state of a
byte transfer and its frame, what a hung write does, how `SQ`, the latches and the answers move. -/

namespace Sys2Proof.Machine

/-! ### What the sequencer keeps -/

/-- What every single step keeps, a run of steps keeps. -/
theorem runSeq_kept {α : Type} (f : State → α) (hstep : ∀ s, f (seqStep s) = f s) (n : Nat) (s : State) :
    f (runSeq n s) = f s := by
  induction n generalizing s with
  | zero => rfl
  | succ n ih => exact (ih (seqStep s)).trans (hstep s)

@[simp] theorem advance_bl (s : State) : (advance s).bl = s.bl := by unfold advance; split <;> rfl

@[simp] theorem advance_hostScript (s : State) : (advance s).hostScript = s.hostScript := by
  unfold advance; split <;> rfl

@[simp] theorem advance_sq (s : State) : (advance s).sq = s.sq.succ := by
  by_cases h : s.sq.succ = .idle
  · rw [advance_last h, h]; rfl
  · rw [advance_next h]

theorem seqStep_bl (s : State) : (seqStep s).bl = s.bl := by
  obtain ⟨-, h⟩ | ⟨v, -, -, h⟩ | ⟨v, -, -, h⟩ | ⟨v, -, -, h⟩ | ⟨d, -, h⟩ := seqStep_cases s <;> simp [h]

theorem seqStep_hostScript (s : State) : (seqStep s).hostScript = s.hostScript := by
  obtain ⟨-, h⟩ | ⟨v, -, -, h⟩ | ⟨v, -, -, h⟩ | ⟨v, -, -, h⟩ | ⟨d, -, h⟩ := seqStep_cases s <;> simp [h]

/-- The sequencer stores to the bus address of `ADDR` alone. -/
theorem seqStep_read_of_ne {s : State} {a : Nat} (ha : a ≠ (busAddress s.addr).toNat) :
    Memory.read (seqStep s).mem a = Memory.read s.mem a := by
  obtain ⟨-, h⟩ | ⟨v, -, -, h⟩ | ⟨v, -, -, h⟩ | ⟨v, -, -, h⟩ | ⟨d, -, h⟩ := seqStep_cases s <;>
    simp [h, Memory.read_write_ne, Memory.read_forget_ne, ha]

theorem runSeq_read_of_ne (n : Nat) {s : State} {a : Nat} (ha : a ≠ (busAddress s.addr).toNat) :
    Memory.read (runSeq n s).mem a = Memory.read s.mem a := by
  induction n generalizing s with
  | zero => rfl
  | succ n ih =>
    obtain ⟨haddr, -⟩ := config_eq_iff.1 (seqStep_config s)
    exact (ih (by rwa [haddr])).trans (seqStep_read_of_ne ha)

/-! ### The answers of the operations (10_state.md R23) -/

/-- From `s` to `t` the operation either ended with one answer, of which `P` holds, or is in progress with none. -/
def AnsweredOnce (P : Answer → Prop) (s t : State) : Prop :=
  (t.sq = .idle ∧ ∃ a, t.answers = s.answers ++ [a] ∧ P a) ∨ (t.sq ≠ .idle ∧ t.answers = s.answers)

/-- The starting state counts by its answers alone. -/
theorem AnsweredOnce.imp {P Q : Answer → Prop} {s s' t : State} (h : AnsweredOnce P s' t)
    (hanswers : s'.answers = s.answers) (hPQ : ∀ a, P a → Q a) : AnsweredOnce Q s t := by
  rw [AnsweredOnce, hanswers] at h
  exact h.imp_left fun ⟨hidle, a, ha, hP⟩ => ⟨hidle, a, ha, hPQ a hP⟩

theorem advance_answeredOnce (s : State) : AnsweredOnce (· = .done) s (advance s) := by
  by_cases h : s.sq.succ = .idle
  · exact .inl (by simp [advance_last h])
  · exact .inr (by simp [advance_next h, h])

theorem seqStep_answeredOnce {s : State} (hbusy : s.sq ≠ .idle) :
    AnsweredOnce (fun a => a = .done ∨ a = .fault .transportError s.sq none) s (seqStep s) := by
  obtain ⟨hidle, -⟩ | ⟨v, -, -, h⟩ | ⟨v, -, -, h⟩ | ⟨v, -, -, h⟩ | ⟨d, -, h⟩ := seqStep_cases s
  · exact absurd hidle hbusy
  · rw [h]
    exact (advance_answeredOnce _).imp (by simp) fun _ => .inl
  · rw [h]
    exact .inl ⟨rfl, _, by simp, .inr rfl⟩
  · rw [h]
    exact .inr ⟨hbusy, rfl⟩
  · rw [h]
    exact (advance_answeredOnce _).imp (by simp) fun _ => .inl

theorem transfer_never_sq (m : Mode) (b : Byte) {s : State} {k : Nat} (hk : k < 6) (hok : s.BusOk k)
    (hnever : s.answerAhead k = .never) : (transfer m b s).sq = writeStep k := by
  rw [transfer_never m b s hk hok hnever]
  exact stepAt_eventOf hk

theorem writeStep_ne_idle (k : Nat) : writeStep k ≠ .idle := by
  unfold writeStep; split <;> decide

theorem transfer_answeredOnce (m : Mode) (b : Byte) (s : State) :
    AnsweredOnce (fun a => a = .done ∨ ∃ k, a = .fault .transportError k none) s (transfer m b s) := by
  obtain hok | ⟨k, hk, hok, herr | hnever⟩ := busOk_or_first s 6
  · exact .inl ⟨transfer_done_sq m b hok, _, transfer_done_answers m b hok, .inl rfl⟩
  · exact .inl ⟨transfer_err_sq m b hk hok herr, _, transfer_err_answers m b hk hok herr, .inr ⟨_, rfl⟩⟩
  · exact .inr ⟨by rw [transfer_never_sq m b hk hok hnever]; exact writeStep_ne_idle k,
      transfer_never_answers m b hk hok hnever⟩

theorem afterOp_of_busy (i : Instr) {s : State} (h : s.sq ≠ .idle) : afterOp i s = s := by
  cases i <;> exact whenIdle_of_busy h _

theorem afterOp_transferOp_of_idle (m : Mode) (b : Byte) {s : State} (h : s.sq = .idle) :
    afterOp (transferOp m b) s = transfer m b s := by
  cases m <;> exact whenIdle_of_idle h _

/-- At `Idle` an operation is a byte transfer, or writes `BL` (30_encoding.md R55). -/
theorem afterOp_of_idle (i : Instr) {s : State} (h : s.sq = .idle) :
    (∃ m b, i = transferOp m b ∧ afterOp i s = transfer m b s) ∨
      ((i = .bloff ∨ i = .blon ∨ i = .bltgl) ∧ afterOp i s = setBacklight (blAfter s.bl i) s) := by
  cases i with
  | cmd b => exact .inl ⟨.command, b, rfl, whenIdle_of_idle h _⟩
  | dat b => exact .inl ⟨.data, b, rfl, whenIdle_of_idle h _⟩
  | bloff => exact .inr ⟨by simp, whenIdle_of_idle h _⟩
  | blon => exact .inr ⟨by simp, whenIdle_of_idle h _⟩
  | bltgl => exact .inr ⟨by simp, whenIdle_of_idle h _⟩

theorem afterOp_answeredOnce (i : Instr) {s : State} (hidle : s.sq = .idle) :
    AnsweredOnce (fun a => a = .done ∨ ∃ k, a = .fault .transportError k none) s (afterOp i s) := by
  obtain ⟨m, b, -, h⟩ | ⟨-, h⟩ := afterOp_of_idle i hidle <;> rw [h]
  · exact transfer_answeredOnce m b s
  · exact .inl ⟨hidle, .done, rfl, .inl rfl⟩

/-! ### A write that never returns (60_exceptions.md R109) -/

theorem runSteps_of_fixed {s : State} (h : step s = .next s) (n : Nat) : runSteps n s = .next s := by
  induction n with
  | zero => rfl
  | succ n ih => rw [runSteps_step h, ih]

theorem step_of_hung_write {s : State} {v : Byte} (hm : s.micro = some (.write v)) (hnever : s.busAnswer = .never) :
    step s = .next s := by
  rw [step_of_busy (sq_ne_idle_of_micro hm), seqStep_never hm hnever]

/-- The state a hung transfer is left in is again one at a write that never returns. -/
theorem step_of_hung_transfer (m : Mode) (b : Byte) {s : State} {k : Nat} (hk : k < 6) (hok : s.BusOk k)
    (hnever : s.answerAhead k = .never) : step (transfer m b s) = .next (transfer m b s) := by
  have hj : eventOf k ≤ 9 := by interval_cases k <;> decide
  rw [transfer_never m b s hk hok hnever]
  refine step_of_hung_write (v := writeValue m b s.bl k) ?_ ?_
  · rw [midState_micro m b s hj, microAt_eventOf _ _ _ _ hk]
  · rw [midState_busAnswer, writesBefore_eventOf hk, hnever]

/-- Settles O14: the hung block steps to itself, and a hung transfer leaves the block hung. -/
theorem hungWriteHangsTheBlockForEver : Obligations.HungWriteHangsTheBlockForEver := by
  refine ⟨fun s v hm hnever => runSteps_of_fixed (step_of_hung_write hm hnever), fun m b s k hidle hk hok hnever => ?_⟩
  have hsq := transfer_never_sq m b hk hok hnever
  exact ⟨_, exec_transferOp_of_idle m b hidle, hsq, (busy_iff _).2 (hsq ▸ writeStep_ne_idle k),
    transfer_never_trace m b hk hok hnever, transfer_never_tf m b hk hok hnever,
    transfer_never_answers m b hk hok hnever, runSteps_of_fixed (step_of_hung_transfer m b hk hok hnever)⟩

/-- Settles O32: an operation or a step of one answers once or not at all; the busy port takes nothing. -/
theorem hostPortAnswersEachOperationOnce : Obligations.HostPortAnswersEachOperationOnce := by
  refine ⟨fun i s hbusy => ?_, fun s t hbusy hstep => ?_, fun i s t hidle hexec => ?_, fun s t hbusy hstep => ?_,
    fun s v hm hnever n => ⟨s, runSteps_of_fixed (step_of_hung_write hm hnever) n, rfl⟩⟩
  · rw [exec_eq, afterOp_of_busy i hbusy]
  · obtain rfl := Host.Outcome.next.inj ((step_of_busy hbusy).symm.trans hstep)
    exact seqStep_hostScript s
  · obtain rfl := Host.Outcome.next.inj ((exec_eq i s).symm.trans hexec)
    exact afterOp_answeredOnce i hidle
  · obtain rfl := Host.Outcome.next.inj ((step_of_busy hbusy).symm.trans hstep)
    exact seqStep_answeredOnce hbusy

/-! ### The whole next state of a byte transfer, and its frame -/

/-- Settles O10: the model's last register is the sixth value, which is `c_lo` again. -/
theorem byteTransferHasExactlyThisNextState : Obligations.ByteTransferHasExactlyThisNextState := by
  intro m b s hidle hok
  rw [exec_transferOp_of_idle m b hidle, transfer_done m b s hok]
  simp [reply, goIdle, memAfter, writeValue, deassertEnable_composeLo]

theorem afterOp_hostScript (i : Instr) (s : State) : (afterOp i s).hostScript = s.hostScript := by
  obtain h | ⟨m, b, h⟩ | ⟨v, h⟩ := afterOp_cases i s <;> rw [h]
  · exact runSeq_kept State.hostScript seqStep_hostScript 10 (acceptTransfer m b s)
  · rfl

/-- What a byte transfer leaves unchanged, in every state and whatever the bus does (40_send.md R72, R73). -/
theorem afterOp_transferOp_kept (m : Mode) (b : Byte) (s : State) :
    (afterOp (transferOp m b) s).bl = s.bl ∧
      (∃ new, (afterOp (transferOp m b) s).answers = s.answers ++ new) ∧
      ∀ a, a ≠ (busAddress s.addr).toNat → Memory.read (afterOp (transferOp m b) s).mem a = Memory.read s.mem a := by
  by_cases hidle : s.sq = .idle
  · rw [afterOp_transferOp_of_idle m b hidle]
    refine ⟨runSeq_kept State.bl seqStep_bl 10 _, ?_, fun a ha => runSeq_read_of_ne 10 (s := acceptTransfer m b s) ha⟩
    obtain ⟨-, a, ha, -⟩ | ⟨-, ha⟩ := transfer_answeredOnce m b s
    · exact ⟨[a], ha⟩
    · exact ⟨[], by rw [ha, List.append_nil]⟩
  · rw [afterOp_of_busy _ hidle]
    exact ⟨rfl, ⟨[], (List.append_nil _).symm⟩, fun _ _ => rfl⟩

/-- Settles O11: the configuration and the records as for every operation, the rest step by step of the sequencer. -/
theorem byteTransferFrame : Obligations.ByteTransferFrame := by
  intro m b s t hexec
  obtain rfl := Host.Outcome.next.inj ((exec_eq _ s).symm.trans hexec)
  obtain ⟨haddr, hwidth, hmaxLines, hdelays⟩ := config_eq_iff.1 (afterOp_config (transferOp m b) s)
  have hhost := afterOp_hostScript (transferOp m b) s
  obtain ⟨hbl, hanswers, hmem⟩ := afterOp_transferOp_kept m b s
  obtain ⟨new, hr⟩ := recorded_afterOp (transferOp m b) s
  have htf := (afterOp_tf (transferOp m b) s).imp_right And.left
  exact ⟨haddr, hwidth, hmaxLines, hdelays, hbl, hhost, htf, ⟨new, hr.trace⟩, hanswers, hmem⟩

/-- The machine's steps from a state inside an operation are the sequencer's, up to the end of the operation. -/
theorem exists_runSteps_eq_runSeq (n : Nat) (s : State) : ∃ k, k ≤ n ∧ runSteps k s = .next (runSeq n s) := by
  induction n generalizing s with
  | zero => exact ⟨0, le_rfl, rfl⟩
  | succ n ih =>
    by_cases hidle : s.sq = .idle
    · exact ⟨0, Nat.zero_le _, by rw [runSeq_idle hidle]; rfl⟩
    · obtain ⟨k, hk, hrun⟩ := ih (seqStep s)
      exact ⟨k + 1, Nat.succ_le_succ hk, by rw [runSteps_step (step_of_busy hidle), hrun]; rfl⟩

/-- Settles O15: a transfer is ten steps of the sequencer, and the machine takes as many of them as the operation has. -/
theorem byteTransferIsTheSequencersRun : Obligations.ByteTransferIsTheSequencersRun := by
  intro m b s hidle
  rw [exec_transferOp_of_idle m b hidle]
  exact exists_runSteps_eq_runSeq 10 (acceptTransfer m b s)

/-! ### The table of the sequencer (10_state.md R17) -/

/-- The table, with `c_hi` and `c_lo` as `Send` composes them (40_send.md R70). -/
theorem micro_table (s : State) :
    (s.sq = .s0 → s.micro = some (.write (composeHi s.opm s.opb s.opl))) ∧
    (s.sq = .s1 → s.micro = some (.write (composeHi s.opm s.opb s.opl ||| 0x04#8))) ∧
    (s.sq = .s2 → s.micro = some (.delay s.delays.pulse)) ∧
    (s.sq = .s3 → s.micro = some (.write (composeHi s.opm s.opb s.opl &&& ~~~0x04#8))) ∧
    (s.sq = .s4 → s.micro = some (.delay s.delays.settle)) ∧
    (s.sq = .s5 → s.micro = some (.write (composeLo s.opm s.opb s.opl))) ∧
    (s.sq = .s6 → s.micro = some (.write (composeLo s.opm s.opb s.opl ||| 0x04#8))) ∧
    (s.sq = .s7 → s.micro = some (.delay s.delays.pulse)) ∧
    (s.sq = .s8 → s.micro = some (.write (composeLo s.opm s.opb s.opl &&& ~~~0x04#8))) ∧
    (s.sq = .s9 → s.micro = some (.delay s.delays.settle)) := by
  rw [← ctrl_highNibble, ← ctrl_lowNibble]
  refine ⟨?_, ?_, ?_, ?_, ?_, ?_, ?_, ?_, ?_, ?_⟩ <;> intro h <;> rw [State.micro, h] <;> rfl

theorem step_of_ok_write {s : State} {v : Byte} (hm : s.micro = some (.write v)) (hok : s.busAnswer = .ok) :
    step s = .next (advance (completeWrite v (takeAnswer s))) := by
  rw [step_of_busy (sq_ne_idle_of_micro hm), seqStep_ok hm hok]

theorem step_of_delay {s : State} {d : Nat} (hm : s.micro = some (.delay d)) :
    step s = .next (advance (emit (.t d) s)) := by
  rw [step_of_busy (sq_ne_idle_of_micro hm), seqStep_delay hm]

/-- A backlight operation writes `BL` and answers, or the block was busy and does nothing. -/
theorem exec_backlight_sq {i : Instr} (hi : i = .bloff ∨ i = .blon ∨ i = .bltgl) {s t : State}
    (hexec : exec i s = .next t) : t.sq = s.sq := by
  by_cases hidle : s.sq = .idle
  · obtain ⟨f, hf⟩ := exec_backlight_of_idle hi
    obtain rfl := Host.Outcome.next.inj ((hf s hidle).symm.trans hexec)
    rfl
  · obtain rfl := Host.Outcome.next.inj ((exec_eq i s).symm.trans hexec)
    rw [afterOp_of_busy i hidle]

/-- Settles O30: the table is `State.micro`, and each outcome of an event is one equation for `step`. -/
theorem sequencerFollowsItsTable : Obligations.SequencerFollowsItsTable := by
  refine ⟨micro_table, by decide, fun s v hm hok => ?_, fun s d hm => ?_, fun s v hm herr => ?_,
    fun s v hm hnever => step_of_hung_write hm hnever, fun s hbusy i => ?_, fun i hi s t => exec_backlight_sq hi, rfl⟩
  · exact ⟨_, step_of_ok_write hm hok, by simp, by simp⟩
  · exact ⟨_, step_of_delay hm, by simp, by simp⟩
  · exact ⟨_, step_of_failing_write hm herr, rfl⟩
  · rw [exec_eq, afterOp_of_busy i hbusy]

/-! ### The latches (10_state.md R18) -/

/-- `OPM`, `OPB` and `OPL` together. -/
def State.latches (s : State) : Mode × Byte × Bool := (s.opm, s.opb, s.opl)

theorem latches_eq_iff {s t : State} : t.latches = s.latches ↔ t.opm = s.opm ∧ t.opb = s.opb ∧ t.opl = s.opl := by
  simp [State.latches]

theorem advance_latches {s : State} (h : (advance s).sq ≠ .idle) : (advance s).latches = s.latches := by
  rw [advance_sq] at h
  rw [advance_next h]
  rfl

theorem seqStep_latches {s : State} (h : (seqStep s).sq ≠ .idle) : (seqStep s).latches = s.latches := by
  obtain ⟨-, hs⟩ | ⟨v, -, -, hs⟩ | ⟨v, -, -, hs⟩ | ⟨v, -, -, hs⟩ | ⟨d, -, hs⟩ := seqStep_cases s <;> rw [hs] at h ⊢
  · rw [advance_latches h]
    simp [State.latches]
  · exact absurd rfl h
  · rw [advance_latches h]
    rfl

/-- A transfer that has not ended is at a write that never returns, with its operands latched. -/
theorem transfer_latches {m : Mode} {b : Byte} {s : State} (h : (transfer m b s).sq ≠ .idle) :
    (transfer m b s).opm = m ∧ (transfer m b s).opb = b ∧ (transfer m b s).opl = s.bl := by
  obtain hok | ⟨k, hk, hok, herr | hnever⟩ := busOk_or_first s 6
  · exact absurd (transfer_done_sq m b hok) h
  · exact absurd (transfer_err_sq m b hk hok herr) h
  · rw [transfer_never m b s hk hok hnever]
    exact ⟨rfl, rfl, rfl⟩

/-- But for the enable bit, every written value is one of the two composed from the latches. -/
theorem deassertEnable_of_micro {s : State} {v : Byte} (h : s.micro = some (.write v)) :
    deassertEnable v = ctrl s.opm (highNibble s.opb) s.opl ∨ deassertEnable v = ctrl s.opm (lowNibble s.opb) s.opl := by
  obtain ⟨n, hn, hv⟩ := micro_write_cases h
  have hdeassert : deassertEnable v = ctrl s.opm n s.opl := by
    obtain rfl | rfl := hv
    · exact deassertEnable_ctrl ..
    · exact deassertEnable_assertEnable ..
  refine hn.imp ?_ ?_ <;> rintro rfl <;> exact hdeassert

/-- Settles O31: acceptance overwrites the latches, the sequencer keeps them, and a backlight operation reads `BL` alone. -/
theorem latchesHoldTheOperandsOfTheTransfer : Obligations.LatchesHoldTheOperandsOfTheTransfer := by
  refine ⟨fun m b s t hidle hexec hbusy => ?_, fun s t hbusy hstep => ?_, fun s v hm => deassertEnable_of_micro hm,
    fun m m' b b' l s hidle => ?_, fun i m' b' l s t hidle hi hexec => ?_⟩
  · obtain rfl := eq_transfer_of_exec hidle hexec
    exact transfer_latches hbusy
  · obtain rfl := Host.Outcome.next.inj ((step_of_busy hbusy).symm.trans hstep)
    exact ⟨seqStep_bl s, fun hbusy' => latches_eq_iff.1 (seqStep_latches hbusy')⟩
  · rw [exec_transferOp_of_idle m b hidle]
    exact exec_transferOp_of_idle m b (s := { s with opm := m', opb := b', opl := l }) hidle
  · obtain ⟨f, hf⟩ := exec_backlight_of_idle hi
    obtain rfl := Host.Outcome.next.inj ((hf s hidle).symm.trans hexec)
    exact hf { s with opm := m', opb := b', opl := l } hidle

end Sys2Proof.Machine

/-! SUPPORT. What a step reads and runs (10_state.md R12, R13, R23; 30_encoding.md R54, R55): `WIDTH` and `MAX_LINES` are
read by nothing, and at `Idle` the word presented next is decoded and run. -/

namespace Sys2Proof.Machine

/-! ### Nothing reads `WIDTH` or `MAX_LINES` -/

/-- The same state with other panel dimensions. -/
def State.withPanel (s : State) (w : Nat) (l : BitVec 3) : State := { s with width := w, maxLines := l }

/-- From other panel dimensions `f` answers the same but for these dimensions (10_state.md R12, R13). -/
def PanelBlind (f : State → State) : Prop := ∀ s w l, f (s.withPanel w l) = (f s).withPanel w l

theorem PanelBlind.comp {f g : State → State} (hg : PanelBlind g) (hf : PanelBlind f) : PanelBlind (g ∘ f) := by
  intro s w l
  rw [Function.comp_apply, Function.comp_apply, hf, hg]

theorem panelBlind_emit (e : Event) : PanelBlind (emit e) := fun _ _ _ => rfl
theorem panelBlind_completeWrite (v : Byte) : PanelBlind (completeWrite v) := fun _ _ _ => rfl
theorem panelBlind_raiseTransportError (v : Byte) : PanelBlind (raiseTransportError v) := fun _ _ _ => rfl

theorem panelBlind_takeAnswer : PanelBlind takeAnswer := by
  intro s w l
  unfold takeAnswer State.withPanel; cases s.busScript <;> rfl

theorem panelBlind_advance : PanelBlind advance := by
  intro s w l
  by_cases h : s.sq.succ = .idle
  · rw [advance_last h, advance_last (s := s.withPanel w l) h]; rfl
  · rw [advance_next h, advance_next (s := s.withPanel w l) h]; rfl

/-- The event of a step and the bus's answer are functions of the other fields, so both states take the same case. -/
theorem panelBlind_seqStep : PanelBlind seqStep := by
  intro s w l
  obtain ⟨hi, h⟩ | ⟨v, hm, ha, h⟩ | ⟨v, hm, ha, h⟩ | ⟨v, hm, ha, h⟩ | ⟨d, hm, h⟩ := seqStep_cases s <;> rw [h]
  · exact seqStep_idle (s := s.withPanel w l) hi
  · rw [seqStep_ok (s := s.withPanel w l) hm ha]
    exact (panelBlind_advance.comp ((panelBlind_completeWrite v).comp panelBlind_takeAnswer)) s w l
  · rw [seqStep_err (s := s.withPanel w l) hm ha]
    exact ((panelBlind_raiseTransportError v).comp panelBlind_takeAnswer) s w l
  · exact seqStep_never (s := s.withPanel w l) hm ha
  · rw [seqStep_delay (s := s.withPanel w l) hm]
    exact (panelBlind_advance.comp (panelBlind_emit (.t d))) s w l

theorem panelBlind_runSeq (n : Nat) : PanelBlind (runSeq n) := by
  induction n with
  | zero => exact fun _ _ _ => rfl
  | succ n ih => exact ih.comp panelBlind_seqStep

theorem panelBlind_transfer (m : Mode) (b : Byte) : PanelBlind (transfer m b) :=
  fun s => panelBlind_runSeq 10 (acceptTransfer m b s)

theorem panelBlind_afterOp (i : Instr) : PanelBlind (afterOp i) := by
  intro s w l
  by_cases hidle : s.sq = .idle
  · obtain ⟨m, b, rfl, h⟩ | ⟨hi, h⟩ := afterOp_of_idle i hidle <;> rw [h]
    · rw [afterOp_transferOp_of_idle m b (s := s.withPanel w l) hidle, panelBlind_transfer]
    · obtain rfl | rfl | rfl := hi <;> exact whenIdle_of_idle (s := s.withPanel w l) hidle _
  · rw [afterOp_of_busy i hidle, afterOp_of_busy i (s := s.withPanel w l) hidle]

/-- Settles O34: from other panel dimensions the block takes the same step, and every step is blind to them. -/
theorem widthAndMaxLinesAreNeverRead : Obligations.WidthAndMaxLinesAreNeverRead := by
  intro s t w l h
  show step (s.withPanel w l) = .next (t.withPanel w l)
  obtain ⟨hb, rfl⟩ | ⟨hi, hs, rfl⟩ | ⟨d, _, hi, hs, rfl⟩ | ⟨rq, _, i, hi, hs, hd, rfl⟩ | ⟨rq, _, _, hi, hs, hd, rfl⟩ :=
    step_cases h
  · rw [step_of_busy (s := s.withPanel w l) hb, panelBlind_seqStep]
  · exact step_of_nothing_presented (s := t.withPanel w l) hi hs
  · exact step_of_wait (s := s.withPanel w l) hi hs
  · rw [step_of_instr (s := s.withPanel w l) hi hs hd]
    exact congrArg _ (panelBlind_afterOp i (popAction s) w l)
  · exact step_of_reserved (s := s.withPanel w l) hi hs hd

/-! ### What a step runs -/

/-- Settles O43: at `Idle` the two cases of a word that decodes and of nothing presented, while busy the sequencer. -/
theorem stepRunsTheDecodedOperation : Obligations.StepRunsTheDecodedOperation := by
  refine ⟨fun s rq rest i hidle hs hd => ?_, fun s => step_of_nothing_presented, fun s => step_of_busy⟩
  have hpop : popAction s = { s with hostScript := rest } := by rw [popAction, hs, List.tail_cons]
  rw [step_of_instr hidle hs hd, hpop, exec_eq]

/-- Settles O44: the placed word is that of the operation, which it decodes to, and is gone when the operation runs. -/
theorem fetchedWordIsRunNext : Obligations.FetchedWordIsRunNext := by
  intro i s nbits
  have hplaced : s.withFetchWord nbits (encode i).toNat = presentNext (encode i) s := by
    rw [State.withFetchWord, BitVec.ofNat_toNat, BitVec.setWidth_eq]
  rw [hplaced, step_of_instr rfl rfl (decode_encode i), exec_eq]
  rfl

/-- Settles O45: each of the five cases of a step answers a next state. -/
theorem everyStepAnswersANextState : Obligations.EveryStepAnswersANextState := by
  intro s
  by_cases hidle : s.sq = .idle
  · match hs : s.hostScript with
    | [] => exact ⟨_, step_of_nothing_presented hidle hs⟩
    | .wait d :: rest => exact ⟨_, step_of_wait hidle hs⟩
    | .request rq :: rest =>
      cases hd : decode rq with
      | instr i => exact ⟨_, step_of_instr hidle hs hd⟩
      | reserved why => exact ⟨_, step_of_reserved hidle hs hd⟩
  · exact ⟨_, step_of_busy hidle⟩

end Sys2Proof.Machine

/-! SUPPORT. The request word in both directions (30_encoding.md R54, R55; 95_test_vectors.md section 2.5), and the control
byte's fields (30_encoding.md R51, R52). -/

namespace Sys2Proof.Machine

/-- Settles O40: `OP` and `IMM` of an appended word are its two parts. -/
theorem decodeOfEncode : Obligations.DecodeOfEncode := fun i _ => decode_encode i

/-- Settles O41: the fields of a word that decodes fix the whole word. -/
theorem encodeOfDecode : Obligations.EncodeOfDecode := fun _ _ => encode_of_decode

/-- Settles O42: each of the nine words is the request word of its operation. -/
theorem tabulatedRequestWordsDecode : Obligations.TabulatedRequestWordsDecode :=
  ⟨decode_encode (.cmd 0x00#8), decode_encode (.cmd 0x28#8), decode_encode (.cmd 0xFF#8), decode_encode (.dat 0x00#8),
    decode_encode (.dat 0x41#8), decode_encode (.dat 0xFF#8), decode_encode .bloff, decode_encode .blon,
    decode_encode .bltgl⟩

/-- The fields of the control byte do not overlap, so it is their sum (30_encoding.md R51). -/
theorem ctrl_toNat (m : Mode) (n : Nibble) (bl : Bool) :
    (ctrl m n bl).toNat = (modeByte m).toNat * 0x01 + n.toNat * 0x10 + (bitByte bl).toNat * 0x08 := by
  revert n; cases m <;> cases bl <;> decide

/-- Settles O37: the masks as they are defined, and the fields of `ctrl` one by one. -/
theorem controlByteFormat : Obligations.ControlByteFormat :=
  ⟨rfl, rfl, rfl, rfl, rfl, rfl, rfl, rfl, fun m n bl => ⟨ctrl_toNat m n bl, dataField_ctrl m n bl,
    backlightField_ctrl m n bl, enableField_ctrl m n bl, ctrl_bit1 m n bl, modeField_ctrl m n bl, rfl,
    enableField_assertEnable m n bl, deassertEnable_ctrl m n bl⟩⟩

end Sys2Proof.Machine

/-! SUPPORT. Construction's one exception (60_exceptions.md R104) and what it fixes for good (00_scope.md R6;
42_host_sequences.md R93). -/

namespace Sys2Proof.Machine

/-- Each check's parameter is recorded exactly if the check fails (log entry 10). -/
theorem mem_illegalParams (p : Params) :
    (ParamName.width ∈ illegalParams p ↔ p.widthOk = false) ∧
    (ParamName.maxLines ∈ illegalParams p ↔ p.maxLinesOk = false) ∧
    (ParamName.address ∈ illegalParams p ↔ p.addressOk = false) := by
  unfold illegalParams
  cases p.widthOk <;> cases p.maxLinesOk <;> cases p.addressOk <;> decide

theorem eq_illegalParams_of_construct {d : Delays} {p : Params} {bad : List ParamName}
    (h : construct d p = .fault (.configurationError bad)) : bad = illegalParams p := by
  by_cases hwf : p.wf = true
  · rw [construct_of_wf d hwf] at h
    cases h
  · rw [construct_of_not_wf d hwf] at h
    cases h
    rfl

/-- Settles O2: the recorded list is `illegalParams`, and each check fails outside its bounds. -/
theorem configurationErrorNamesTheIllegalParameters : Obligations.ConfigurationErrorNamesTheIllegalParameters := by
  intro d p bad h
  obtain rfl := eq_illegalParams_of_construct h
  obtain ⟨hwidth, hmaxLines, haddress⟩ := mem_illegalParams p
  rw [hwidth, hmaxLines, haddress, Params.widthOk, Params.maxLinesOk, Params.addressOk, decide_eq_false_iff_not,
    decide_eq_false_iff_not, decide_eq_false_iff_not]
  omega

theorem eq_afterReset_of_construct {d : Delays} {p : Params} {s : State} (h : construct d p = .next s) :
    p.wf = true ∧ s = State.afterReset d p := by
  by_cases hwf : p.wf = true
  · rw [construct_of_wf d hwf] at h
    exact ⟨hwf, (Host.Outcome.next.inj h).symm⟩
  · rw [construct_of_not_wf d hwf] at h
    cases h

/-- Legal parameters and a build's legal delays give a legal configuration (60_exceptions.md R104; R125). -/
theorem configLegal_afterReset {d : Delays} {p : Params} (hp : p.wf = true) (hd : d.wf = true) :
    (State.afterReset d p).ConfigLegal := by
  obtain ⟨hw, ⟨h1, h4⟩, -⟩ := p.wf_iff.1 hp
  have hwidth := afterReset_width d hw
  have hmaxLines := afterReset_maxLines_toNat d h1 h4
  exact ⟨by omega, by omega, by omega, hd⟩

/-- Settles O54: the delays and `WIDTH` come from construction, and no step writes the configuration. -/
theorem buildIsFixedAtConstruction : Obligations.BuildIsFixedAtConstruction := by
  refine ⟨fun d p s h => ?_, fun s t h => ?_, rfl⟩
  · obtain ⟨hp, rfl⟩ := eq_afterReset_of_construct h
    exact ⟨rfl, configLegal_afterReset hp, fun _ => rfl⟩
  · obtain ⟨-, hwidth, -, hdelays⟩ := config_eq_iff.1 (step_config h)
    exact ⟨hdelays, fun ps => by rw [State.expandProgram, State.expandProgram, hwidth]⟩

end Sys2Proof.Machine

/-! SUPPORT. The host's script (20_memory.md R40; 40_send.md R78; 70_reset_and_hazards.md R134): what one entry of it does,
and that a script runs to the concatenation of what its entries do. -/

namespace Sys2Proof.Machine

/-! ### The observer's functions of a script in two parts -/

theorem scriptBl_append (bl : Bool) (xs ys : List HostAction) :
    scriptBl bl (xs ++ ys) = scriptBl (scriptBl bl xs) ys := by
  induction xs generalizing bl with
  | nil => rfl
  | cons x xs ih =>
    cases x with
    | wait d => exact ih bl
    | request rq => cases hd : decode rq <;> simp only [List.cons_append, scriptBl, hd, ih]

theorem scriptTrace_append (dl : Delays) (a : DevAddr) (bl : Bool) (xs ys : List HostAction) :
    scriptTrace dl a bl (xs ++ ys) = scriptTrace dl a bl xs ++ scriptTrace dl a (scriptBl bl xs) ys := by
  induction xs generalizing bl with
  | nil => rfl
  | cons x xs ih =>
    cases x with
    | wait d => exact congrArg _ (ih bl)
    | request rq => cases hd : decode rq <;> simp only [List.cons_append, scriptTrace, scriptBl, hd, ih, List.append_assoc]

theorem scriptAnswers_append (xs ys : List HostAction) :
    scriptAnswers (xs ++ ys) = scriptAnswers xs ++ scriptAnswers ys := by
  induction xs with
  | nil => rfl
  | cons x xs ih =>
    cases x with
    | wait d => exact ih
    | request rq => cases hd : decode rq <;> simp only [List.cons_append, scriptAnswers, hd, ih]

theorem scriptWrites_append (xs ys : List HostAction) :
    scriptWrites (xs ++ ys) = scriptWrites xs + scriptWrites ys := by
  induction xs with
  | nil => simp [scriptWrites]
  | cons x xs ih =>
    cases x with
    | wait d => exact ih
    | request rq =>
      cases hd : decode rq with
      | instr i => cases i <;> simp only [List.cons_append, scriptWrites, hd, ih, Nat.add_assoc]
      | reserved why => simp only [List.cons_append, scriptWrites, hd, ih]

/-! ### What a script does when its writes succeed -/

/-- From `s` to `t` the host did `acts` with every write succeeding. -/
structure Performed (acts : List HostAction) (s t : State) : Prop where
  idle    : t.sq = .idle
  trace   : t.trace = s.trace ++ scriptTrace s.delays s.addr s.bl acts
  answers : t.answers = s.answers ++ scriptAnswers acts
  bl      : t.bl = scriptBl s.bl acts
  tf      : t.tf = s.tf
  config  : t.config = s.config
  bus     : ∀ n, t.answerAhead n = s.answerAhead (n + scriptWrites acts)

theorem performed_nil {s : State} (hidle : s.sq = .idle) : Performed [] s s where
  idle := hidle
  trace := (List.append_nil _).symm
  answers := (List.append_nil _).symm
  bl := rfl
  tf := rfl
  config := rfl
  bus _ := rfl

theorem Performed.trans {xs ys : List HostAction} {s t u : State} (h : Performed xs s t) (h' : Performed ys t u) :
    Performed (xs ++ ys) s u where
  idle := h'.idle
  trace := by
    obtain ⟨haddr, -, -, hdelays⟩ := config_eq_iff.1 h.config
    rw [h'.trace, h.trace, haddr, hdelays, h.bl, scriptTrace_append, List.append_assoc]
  answers := by rw [h'.answers, h.answers, scriptAnswers_append, List.append_assoc]
  bl := by rw [h'.bl, h.bl, scriptBl_append]
  tf := h'.tf.trans h.tf
  config := h'.config.trans h.config
  bus n := by rw [h'.bus, h.bus, scriptWrites_append, Nat.add_assoc, Nat.add_comm (scriptWrites ys)]

theorem Performed.busOk {xs : List HostAction} {s t : State} (h : Performed xs s t) {n : Nat}
    (hok : s.BusOk (scriptWrites xs + n)) : t.BusOk n := by
  intro i hi
  rw [h.bus]
  exact hok _ (by omega)

/-! ### One entry of the script -/

theorem transfer_done_answerAhead (m : Mode) (b : Byte) {s : State} (hok : s.BusOk 6) (n : Nat) :
    (transfer m b s).answerAhead n = s.answerAhead (n + 6) := by
  rw [transfer_done m b s hok, ← answerAhead_takeAnswers 6 s n]
  exact answerAhead_congr rfl rfl n

section Instr
variable {rq : Request} {i : Instr} (hd : decode rq = .instr i)
include hd

theorem scriptTrace_singleton (dl : Delays) (a : DevAddr) (bl : Bool) :
    scriptTrace dl a bl [.request rq] = opTrace dl a bl i := by
  simp [scriptTrace, hd]

theorem scriptAnswers_singleton : scriptAnswers [.request rq] = [.done] := by simp [scriptAnswers, hd]

theorem scriptBl_singleton (bl : Bool) : scriptBl bl [.request rq] = blAfter bl i := by simp [scriptBl, hd]

end Instr

theorem opTrace_transferOp (dl : Delays) (a : DevAddr) (bl : Bool) (m : Mode) (b : Byte) :
    opTrace dl a bl (transferOp m b) = sendTrace dl a m b bl := by
  cases m <;> rfl

theorem blAfter_transferOp (bl : Bool) (m : Mode) (b : Byte) : blAfter bl (transferOp m b) = bl := by
  cases m <;> rfl

theorem scriptWrites_transferOp {rq : Request} {m : Mode} {b : Byte} (hd : decode rq = .instr (transferOp m b)) :
    scriptWrites [.request rq] = 6 := by
  cases m <;> simp [scriptWrites, hd, transferOp]

theorem performed_transfer {m : Mode} {b : Byte} {s : State} {rq : Request} (hd : decode rq = .instr (transferOp m b))
    (hok : s.BusOk 6) : Performed [.request rq] s (transfer m b s) where
  idle := transfer_done_sq m b hok
  trace := by rw [transfer_done_trace m b hok, scriptTrace_singleton hd, opTrace_transferOp]
  answers := by rw [transfer_done_answers m b hok, scriptAnswers_singleton hd]
  bl := by
    obtain ⟨-, -, -, hbl⟩ := transfer_registers m b s
    rw [hbl, scriptBl_singleton hd, blAfter_transferOp]
  tf := transfer_done_tf m b hok
  config := transfer_config m b s
  bus n := by rw [transfer_done_answerAhead m b hok, scriptWrites_transferOp hd]

theorem performed_setBacklight {i : Instr} (hi : i = .bloff ∨ i = .blon ∨ i = .bltgl) {s : State} {rq : Request}
    (hd : decode rq = .instr i) (hidle : s.sq = .idle) : Performed [.request rq] s (setBacklight (blAfter s.bl i) s) where
  idle := hidle
  trace := by
    have hnone : opTrace s.delays s.addr s.bl i = [] := by obtain rfl | rfl | rfl := hi <;> rfl
    rw [setBacklight_trace, scriptTrace_singleton hd, hnone, List.append_nil]
  answers := by rw [setBacklight_answers, scriptAnswers_singleton hd]
  bl := by rw [setBacklight_bl, scriptBl_singleton hd]
  tf := rfl
  config := rfl
  bus n := by
    have hnone : scriptWrites [.request rq] = 0 := by obtain rfl | rfl | rfl := hi <;> simp [scriptWrites, hd]
    rw [hnone]
    exact answerAhead_congr rfl rfl n

theorem performed_hostWait (d : Nat) {s : State} (hidle : s.sq = .idle) : Performed [.wait d] s (hostWait d s) where
  idle := hidle
  trace := rfl
  answers := (List.append_nil _).symm
  bl := rfl
  tf := rfl
  config := rfl
  bus n := answerAhead_congr rfl rfl n

/-- A reserved request has no effect but the answer (60_exceptions.md R105). -/
theorem performed_raiseIllegalRequest {rq : Request} {why : Reserved} (hd : decode rq = .reserved why) {s : State}
    (hidle : s.sq = .idle) : Performed [.request rq] s (raiseIllegalRequest rq s) where
  idle := hidle
  trace := by simp [scriptTrace, hd]
  answers := by simp [scriptAnswers, hd]
  bl := by simp [scriptBl, hd]
  tf := rfl
  config := rfl
  bus n := by
    have hnone : scriptWrites [.request rq] = 0 := by simp [scriptWrites, hd]
    rw [hnone]
    exact answerAhead_congr rfl rfl n

theorem performed_afterOp {i : Instr} {s : State} {rq : Request} (hd : decode rq = .instr i) (hidle : s.sq = .idle)
    (hok : s.BusOk (scriptWrites [.request rq])) : Performed [.request rq] s (afterOp i s) := by
  obtain ⟨m, b, rfl, h⟩ | ⟨hi, h⟩ := afterOp_of_idle i hidle <;> rw [h]
  · rw [scriptWrites_transferOp hd] at hok
    exact performed_transfer hd hok
  · exact performed_setBacklight hi hd hidle

/-- What the host had still to do counts for nothing in what it does now. -/
theorem Performed.of_hostScript {acts l : List HostAction} {s t : State}
    (h : Performed acts { s with hostScript := l } t) : Performed acts s t :=
  ⟨h.idle, h.trace, h.answers, h.bl, h.tf, h.config, h.bus⟩

/-- One step from `Idle` is the whole next entry of the script. -/
theorem step_performs {s : State} {x : HostAction} {rest : List HostAction} (hidle : s.sq = .idle)
    (hs : s.hostScript = x :: rest) (hok : s.BusOk (scriptWrites [x])) :
    ∃ t, step s = .next t ∧ t.hostScript = rest ∧ Performed [x] s t := by
  have hrest : (popAction s).hostScript = rest := by rw [popAction_hostScript, hs, List.tail_cons]
  cases x with
  | wait d => exact ⟨_, step_of_wait hidle hs, hrest, (performed_hostWait d (s := popAction s) hidle).of_hostScript⟩
  | request rq =>
    cases hd : decode rq with
    | instr i =>
      exact ⟨_, step_of_instr hidle hs hd, (afterOp_hostScript i _).trans hrest,
        (performed_afterOp (s := popAction s) hd hidle hok).of_hostScript⟩
    | reserved why =>
      exact ⟨_, step_of_reserved hidle hs hd, hrest,
        (performed_raiseIllegalRequest (s := popAction s) hd hidle).of_hostScript⟩

/-! ### The whole script -/

theorem runSteps_performs {acts : List HostAction} {s : State} (hidle : s.sq = .idle) (hs : s.hostScript = acts)
    (hok : s.BusOk (scriptWrites acts)) :
    ∃ t, runSteps acts.length s = .next t ∧ t.hostScript = [] ∧ Performed acts s t := by
  induction acts generalizing s with
  | nil => exact ⟨s, rfl, hs, performed_nil hidle⟩
  | cons x rest ih =>
    rw [← List.singleton_append, scriptWrites_append] at hok
    obtain ⟨t, hstep, hrest, hx⟩ := step_performs hidle hs (BusOk_mono hok (Nat.le_add_right ..))
    obtain ⟨u, hrun, hnil, hu⟩ := ih hx.idle hrest (hx.busOk hok)
    exact ⟨u, (runSteps_step hstep _).trans hrun, hnil, hx.trans hu⟩

/-- Settles O53: by induction over the script, each entry of which is one step. -/
theorem hostScriptRunsToTheConcatenatedTrace : Obligations.HostScriptRunsToTheConcatenatedTrace := by
  intro s hidle hok
  obtain ⟨t, hrun, hnil, ht⟩ := runSteps_performs hidle rfl hok
  obtain ⟨haddr, hwidth, hmaxLines, hdelays⟩ := config_eq_iff.1 ht.config
  exact ⟨t, hrun, ended_of_nil hnil ht.idle, hnil, ht.trace, ht.answers, ht.bl, ht.tf, haddr, hwidth, hmaxLines, hdelays⟩

end Sys2Proof.Machine

/-! SUPPORT. `INIT` and `PUTC` (42_host_sequences.md R90, R92, R94): what the six commands write and latch, and where a
host that gives up at the first fault stops (log entry 18). -/

namespace Sys2Proof.Machine

/-! ### `INIT` as a script of commands -/

/-- The bytes of `INIT`'s commands (42_host_sequences.md R90). -/
def initBytes : List Byte := [0x33#8, 0x32#8, 0x06#8, 0x0C#8, 0x28#8, 0x01#8]

/-- A `CMD` for each of the bytes. -/
def commandScript (bs : List Byte) : List HostAction := bs.map fun b => present (transferOp .command b)

theorem initSeq_eq : initSeq = commandScript initBytes ++ [.wait Config.tInit] := rfl

theorem isTransfer_of_mem_commandScript {bs : List Byte} {x : HostAction} (h : x ∈ commandScript bs) : x.IsTransfer := by
  obtain ⟨b, -, rfl⟩ := List.mem_map.1 h
  exact ⟨.command, b, rfl⟩

theorem initTrace_eq (dl : Delays) (a : DevAddr) (bl : Bool) :
    initTrace dl a bl = scriptTrace dl a bl (commandScript initBytes) ++ [.t Config.tInit] := by
  rw [initTrace, initSeq_eq, scriptTrace_append]
  rfl

theorem scriptTrace_commandScript_cons (dl : Delays) (a : DevAddr) (bl : Bool) (b : Byte) (bs : List Byte) :
    scriptTrace dl a bl (commandScript (b :: bs)) =
      sendTrace dl a .command b bl ++ scriptTrace dl a bl (commandScript bs) :=
  scriptTrace_present_transferOp ..

/-- Commands one after the other latch their nibbles one after the other (40_send.md R76). -/
theorem latched_commandScript (dl : Delays) (a : DevAddr) (bl : Bool) (bs : List Byte) :
    latched a (scriptTrace dl a bl (commandScript bs)) =
      (bs.flatMap fun b => [highNibble b, lowNibble b]).map fun n => (.command, n) := by
  induction bs with
  | nil => rfl
  | cons b bs ih =>
    rw [scriptTrace_commandScript_cons, latched_append_of_low _ (enableLow_sendTrace _ _ _ _ _), latched_sendTrace, ih]
    rfl

theorem latched_append_delay (a : DevAddr) (es : List Event) (d : Nat) : latched a (es ++ [.t d]) = latched a es := by
  rw [latched, writesTo_append, writesTo, writesTo, List.append_nil, latched]

theorem carryBacklight_strobeTrace (dl : Delays) (a : DevAddr) (m : Mode) (n : Nibble) (bl : Bool) :
    CarryBacklight bl (strobeTrace dl a (ctrl m n bl)) := by
  intro e he v hv
  simp only [strobeTrace, List.mem_cons, List.not_mem_nil, or_false] at he
  rcases he with rfl | rfl | rfl | rfl | rfl <;> cases hv <;>
    simp only [backlightField_assertEnable, backlightField_deassertEnable, backlightField_ctrl]

theorem carryBacklight_sendTrace (dl : Delays) (a : DevAddr) (m : Mode) (b : Byte) (bl : Bool) :
    CarryBacklight bl (sendTrace dl a m b bl) := by
  rw [sendTrace, ← ctrl_highNibble, ← ctrl_lowNibble]
  exact (carryBacklight_strobeTrace _ _ _ _ _).append (carryBacklight_strobeTrace _ _ _ _ _)

theorem carryBacklight_commandScript (dl : Delays) (a : DevAddr) (bl : Bool) (bs : List Byte) :
    CarryBacklight bl (scriptTrace dl a bl (commandScript bs)) := by
  induction bs with
  | nil => exact carryBacklight_nil bl
  | cons b bs ih =>
    rw [scriptTrace_commandScript_cons]
    exact (carryBacklight_sendTrace _ _ _ _ _).append ih

/-- Settles O47: six commands make 36 writes and 24 delays and latch their nibbles; the host's delay follows. -/
theorem initSequence : Obligations.InitSequence := by
  refine ⟨by decide, by decide, fun dl a bl => ?_⟩
  obtain ⟨hwrites, hdelays⟩ :=
    counts_scriptTrace_of_transfers dl a bl fun x => isTransfer_of_mem_commandScript (bs := initBytes) (x := x)
  rw [initTrace_eq]
  refine ⟨?_, ?_, ?_, ?_⟩
  · rw [countWrites_append, hwrites]
    rfl
  · rw [countDelays_append, hdelays]
    rfl
  · rw [latched_append_delay, latched_commandScript]
    decide
  · exact (carryBacklight_commandScript dl a bl initBytes).append (carryBacklight_singleton nofun)

/-! ### A host that gives up at the first fault (log entry 18) -/

theorem faultBetween_eq_any {s t : State} {new : List Answer} (h : t.answers = s.answers ++ new) :
    faultBetween s t = new.any Answer.isFault := by
  rw [faultBetween, h, List.drop_left]

section OneAction
variable {s t : State} {x : HostAction} (rest : List HostAction) {new : List Answer}
  (hstep : step { s with hostScript := x :: s.hostScript } = .next t) (hnew : t.answers = s.answers ++ new)
include hstep hnew

theorem runUntilFault_goes_on (hidle : t.sq = .idle) (hfault : new.any Answer.isFault = false) :
    runUntilFault (x :: rest) s = runUntilFault rest t := by
  simp only [runUntilFault, hstep, (busy_eq_false t).2 hidle, faultBetween_eq_any hnew, hfault, Bool.or_self,
    Bool.false_eq_true, if_false]

theorem runUntilFault_stops (hfault : new.any Answer.isFault = true) : runUntilFault (x :: rest) s = .next t := by
  simp only [runUntilFault, hstep, faultBetween_eq_any hnew, hfault, Bool.or_true, if_true]

end OneAction

/-- A script whose writes succeed and that holds no reserved word is done to its end. -/
theorem runUntilFault_performs {acts : List HostAction} {s : State} (hidle : s.sq = .idle)
    (hok : s.BusOk (scriptWrites acts)) (hfault : (scriptAnswers acts).any Answer.isFault = false) :
    ∃ t, runUntilFault acts s = .next t ∧ Performed acts s t := by
  induction acts generalizing s with
  | nil => exact ⟨s, rfl, performed_nil hidle⟩
  | cons x rest ih =>
    rw [← List.singleton_append] at hok hfault
    rw [scriptWrites_append] at hok
    rw [scriptAnswers_append, List.any_append, Bool.or_eq_false_iff] at hfault
    obtain ⟨hfaultx, hfaultrest⟩ := hfault
    obtain ⟨t, hstep, -, hx⟩ := step_performs (s := { s with hostScript := x :: s.hostScript }) hidle rfl
      (BusOk_mono (s := s) hok (Nat.le_add_right ..))
    obtain ⟨u, hrun, hu⟩ := ih hx.idle (hx.busOk (s := { s with hostScript := x :: s.hostScript }) hok) hfaultrest
    exact ⟨u, (runUntilFault_goes_on rest hstep hx.answers hx.idle hfaultx).trans hrun, hx.of_hostScript.trans hu⟩

/-- A byte transfer presented to the idle block. -/
theorem step_presenting_transfer (m : Mode) (b : Byte) {s : State} (hidle : s.sq = .idle) :
    step { s with hostScript := present (transferOp m b) :: s.hostScript } = .next (transfer m b s) := by
  have hstep := step_of_instr (s := { s with hostScript := present (transferOp m b) :: s.hostScript }) hidle rfl
    (decode_encode (transferOp m b))
  exact hstep.trans (congrArg _ (afterOp_transferOp_of_idle m b hidle))

/-- Before the k-th write, k from 0, a byte transfer has made k writes (40_send.md R77). -/
theorem countWrites_take_sendTrace (dl : Delays) (a : DevAddr) (m : Mode) (b : Byte) (bl : Bool) {k : Nat} (hk : k < 6) :
    countWrites ((sendTrace dl a m b bl).take (writeStep k).index) = k := by
  interval_cases k <;> rfl

/-- Byte transfers one after the other whose k-th write is the first to fail, k from 0: the `k / 6` commands before it end
with `Done`, the next one with the fault of its `k % 6`-th write, and nothing more is sent. -/
theorem runUntilFault_fails {cmds : List HostAction} (rest : List HostAction) (hcmds : ∀ x, x ∈ cmds → x.IsTransfer)
    {s : State} {k : Nat} (hidle : s.sq = .idle) (hk : k < 6 * cmds.length) (hok : s.BusOk k)
    (herr : s.answerAhead k = .err) :
    ∃ t new v, runUntilFault (cmds ++ rest) s = .next t ∧ t.trace = s.trace ++ new ++ [.wf s.addr v] ∧
      countWrites new = k ∧
      t.answers = s.answers ++ List.replicate (k / 6) .done ++ [.fault .transportError (writeStep (k % 6)) none] := by
  induction cmds generalizing s k with
  | nil => exact absurd hk (Nat.not_lt_zero k)
  | cons x cmds ih =>
    obtain ⟨⟨m, b, rfl⟩, htail⟩ := List.forall_mem_cons.1 hcmds
    have hstep := step_presenting_transfer m b hidle
    by_cases hk6 : k < 6
    · have hanswers := transfer_err_answers m b hk6 hok herr
      refine ⟨transfer m b s, _, _, runUntilFault_stops _ hstep hanswers rfl, transfer_err_trace m b hk6 hok herr,
        countWrites_take_sendTrace _ _ _ _ _ hk6, ?_⟩
      rw [hanswers, Nat.div_eq_of_lt hk6, Nat.mod_eq_of_lt hk6, List.replicate_zero, List.append_nil]
    · obtain ⟨j, rfl⟩ : ∃ j, k = j + 6 := ⟨k - 6, by omega⟩
      have hok6 : s.BusOk 6 := BusOk_mono hok (by omega)
      have hahead := transfer_done_answerAhead m b hok6
      have hanswers := transfer_done_answers m b hok6
      obtain ⟨haddr, -⟩ := transfer_registers m b s
      rw [List.length_cons] at hk
      obtain ⟨t, new, v, hrun, htrace, hcount, hlast⟩ := ih htail (transfer_done_sq m b hok6) (k := j) (by omega)
        (fun i hi => by rw [hahead]; exact hok _ (by omega)) (by rw [hahead, herr])
      refine ⟨t, sendTrace s.delays s.addr m b s.bl ++ new, v,
        (runUntilFault_goes_on _ hstep hanswers (transfer_done_sq m b hok6) rfl).trans hrun, ?_, ?_, ?_⟩
      · rw [htrace, transfer_done_trace m b hok6, haddr, List.append_assoc s.trace]
      · rw [countWrites_append, countWrites_sendTrace, hcount, Nat.add_comm]
      · rw [hlast, hanswers, Nat.add_div_right j (by decide), Nat.add_mod_right, List.replicate_succ,
          List.append_assoc s.answers, List.singleton_append]

/-- Settles O48: `INIT` is a script without a reserved word, and of byte transfers but for its last entry. -/
theorem initStopsAtTheFirstFault : Obligations.InitStopsAtTheFirstFault := by
  constructor
  · intro s hidle hok
    obtain ⟨t, hrun, ht⟩ := runUntilFault_performs (acts := initSeq) hidle hok rfl
    exact ⟨t, hrun, ht.trace, ht.idle⟩
  · intro s k hidle hk hok herr
    rw [initSeq_eq]
    exact runUntilFault_fails _ (fun x => isTransfer_of_mem_commandScript) hidle hk hok herr

/-! ### The code of a character (42_host_sequences.md R94) -/

theorem charCode_of_lt {c : Char} (h : c.toNat < 256) : charCode c = some (BitVec.ofNat 8 c.toNat) := if_pos h

theorem charCode_of_ge {c : Char} (h : ¬ c.toNat < 256) : charCode c = none := if_neg h

/-- Settles O51: `PUTC` presents the code where there is one. -/
theorem putcSendsTheCharactersCode : Obligations.PutcSendsTheCharactersCode := by
  refine ⟨putcSeq_of_charCode rfl, putcSeq_of_charCode rfl, putcSeq_of_charCode rfl, putcSeq_of_charCode rfl,
    fun c => ⟨fun hc => ?_, fun hc => ?_⟩⟩
  · exact putcSeq_of_charCode (charCode_of_lt (by omega))
  · exact putcSeq_of_no_charCode (charCode_of_ge (by omega))

end Sys2Proof.Machine

/-! SUPPORT. The assembler reads back what is shown (30_encoding.md R61; log entry 14). -/

namespace Sys2Proof.Machine

theorem hexDigit_hexChar (n : Nibble) : hexDigit (hexChar n) = some n.toNat := by
  revert n; decide

theorem nibbles_toNat (b : Byte) : 16 * (highNibble b).toNat + (lowNibble b).toNat = b.toNat := by
  rw [highNibble_toNat, lowNibble_toNat]
  omega

theorem readByte_of_hexDigits {h l : Char} {x y : Nat} (hh : hexDigit h = some x) (hl : hexDigit l = some y) :
    readByte ['0', 'x', h, l] = some (BitVec.ofNat 8 (16 * x + y), []) := by
  simp [readByte, hh, hl]

theorem readByte_showByte (b : Byte) : readByte (showByte b) = some (b, []) := by
  have hread := readByte_of_hexDigits (hexDigit_hexChar (highNibble b)) (hexDigit_hexChar (lowNibble b))
  rwa [nibbles_toNat, BitVec.ofNat_toNat, BitVec.setWidth_eq] at hread

/-- After a mnemonic and a space the shown byte is the operand, and nothing follows it. -/
theorem readOperand_showByte (mk : Byte → Instr) (b : Byte) : readOperand mk (' ' :: showByte b) = .op (mk b) := by
  have hskip : skipSpaces (showByte b) = showByte b := rfl
  simp only [readOperand, hskip, readByte_showByte]
  rfl

/-- Settles O52: the operand reads back by its two digits, and a bare mnemonic is the whole line. -/
theorem assemblerReadsWhatIsShown : Obligations.AssemblerReadsWhatIsShown := by
  intro i
  cases i with
  | cmd b => exact readOperand_showByte .cmd b
  | dat b => exact readOperand_showByte .dat b
  | bloff => decide
  | blon => decide
  | bltgl => decide

end Sys2Proof.Machine
